-- ==== Sys2Proof/Word.lean ====
section
/-! DEFINITION. The word types of the NSFC block: bytes and byte sequences (R9, R12, R13). -/

namespace Sys2Proof

/-- A byte is an unsigned 8-bit value (R9, R12). -/
abbrev Byte := BitVec 8

/-- A byte sequence, first byte first (R13). -/
abbrev Bytes := List Byte

end Sys2Proof
end

