-- ==== Sys2Proof/Syntax.lean ====
section
/-! DEFINITION. The commands of the block, one constructor per row of spec/opcode_table.json (R87, R92). -/

namespace Sys2Proof

/-- A GPS time record with the field widths of R9. The two leap-second fields are kept as their bytes; `int8` (R12)
gives their signed values. -/
structure GpsTime where
  /-- Time of week in ms, u32. -/
  tow : BitVec 32
  /-- Sub-TOW in ns, u32. -/
  stow : BitVec 32
  /-- GPS week number, u16. -/
  wn : BitVec 16
  /-- Default leap seconds, an i8. -/
  defleap : Byte
  /-- Current leap seconds, an i8. -/
  curleap : Byte
  /-- Validity flag, u8. -/
  valid : Byte
  deriving DecidableEq, Repr

/-- One command of the HOST (R85, R88). The count field `n` of a command is the length of its byte list. -/
inductive Instr where
  /-- RST (R240). -/
  | rst
  /-- CKS_CLR (R122). -/
  | cksClr
  /-- CKS_FEED data (R123). -/
  | cksFeed (data : Bytes)
  /-- CKS_READ (R124). -/
  | cksRead
  /-- ENC_FRAME id, body (R140). -/
  | encFrame (id : Byte) (body : Bytes)
  /-- DEC_PUSH data (R172). -/
  | decPush (data : Bytes)
  /-- DEC_TAKE (R173). -/
  | decTake
  /-- DEC_STATUS (R174). -/
  | decStatus
  /-- DEC_FLUSH (R175). -/
  | decFlush
  /-- GTC_DECODE p (R213). -/
  | gtcDecode (p : Bytes)
  /-- GTC_EPOCH rec (R214). -/
  | gtcEpoch (t : GpsTime)
  /-- GTC_CONVERT p (R215). -/
  | gtcConvert (p : Bytes)
  /-- An opcode byte outside the opcode map (R92). -/
  | illegal (opcode : Byte)
  deriving DecidableEq, Repr

end Sys2Proof
end

