-- ==== Sys2Proof/Machine/Operands.lean ====
section
/-! DEFINITION. The operand forms: slices, big-endian fields, signed bytes, the time record (R12-R14, R53, R88, R95),
and the fixed parameters and wire constants (R10, R71, R78). -/

namespace Sys2Proof.Machine

/-! ### Fixed parameters and constants -/

/-- `MAX_LEN`, the largest declared length and the largest count field `n` (R10, R88). -/
abbrev maxLen : Nat := 65535
/-- `MAX_BODY`, the largest encoder body (R10, R141). -/
abbrev maxBody : Nat := 65534
/-- Capacity of `CAP` (R10, R27). -/
abbrev capCapacity : Nat := 65542
/-- Capacity of `REPLAY` (R10, R28). -/
abbrev replayCapacity : Nat := 65541
/-- START1 (R71). -/
abbrev start1 : Byte := 0xA0#8
/-- START2 (R71). -/
abbrev start2 : Byte := 0xA1#8
/-- END1 (R71). -/
abbrev end1 : Byte := 0x0D#8
/-- END2 (R71). -/
abbrev end2 : Byte := 0x0A#8
/-- `GPS_EPOCH_OFFSET` (R10). -/
abbrev gpsEpochOffset : Int := 315964800
/-- Seconds per GPS week (R10). -/
abbrev secondsPerWeek : Int := 604800
/-- Offset of the time record in a time response payload (R10, R78). -/
abbrev timeRecordOffset : Nat := 16
/-- Minimum length of a time payload (R10, R78). -/
abbrev minTimePayload : Nat := 29

/-! ### Byte sequences -/

/-- `s[i..j)`: bytes `i` to `j-1` (R13). -/
def slice (s : Bytes) (i j : Nat) : Bytes := (s.drop i).take (j - i)

/-- `be(s)`: the big-endian value of `s` (R13). -/
def be (s : Bytes) : Nat := s.foldl (fun v b => v * 256 + b.toNat) 0

/-- `be_N(v)`: the `N`-byte big-endian sequence of `v mod 256^N` (R13). -/
def beBytes : Nat → Nat → Bytes
  | 0, _ => []
  | n + 1, v => BitVec.ofNat 8 (v / 256 ^ n) :: beBytes n v

/-- `OpRead(s, off, n)`: the big-endian value of `s[off..off+n)` (R14). -/
def opRead (s : Bytes) (off n : Nat) : Nat := be (slice s off (off + n))

/-- `int8(b)`: the signed value of byte `b` (R12). -/
def int8 (b : Byte) : Int := if b.toNat < 128 then b.toNat else (b.toNat : Int) - 256

/-! ### The time record -/

/-- The 13-byte time record that starts at offset `off` of `s` (R78, R88, R95). -/
def timeRecordAt (s : Bytes) (off : Nat) : GpsTime where
  tow := BitVec.ofNat 32 (opRead s off 4)
  stow := BitVec.ofNat 32 (opRead s (off + 4) 4)
  wn := BitVec.ofNat 16 (opRead s (off + 8) 2)
  defleap := BitVec.ofNat 8 (opRead s (off + 10) 1)
  curleap := BitVec.ofNat 8 (opRead s (off + 11) 1)
  valid := BitVec.ofNat 8 (opRead s (off + 12) 1)

/-- The 13 bytes of a time record (R88, R213). -/
def timeRecordBytes (t : GpsTime) : Bytes :=
  beBytes 4 t.tow.toNat ++ beBytes 4 t.stow.toNat ++ beBytes 2 t.wn.toNat ++ [t.defleap, t.curleap, t.valid]

end Sys2Proof.Machine
end

