-- ==== Sys2Proof/Machine/State.lean ====
section
/-! DEFINITION. The machine's state as plain data: the nine elements of R20, and beside them the command channel, the
HOST's remaining moves and the responses (R21, R35, R293; log entry 1). The block has no memory, no register file and
no program counter (R21, R50). -/

namespace Sys2Proof.Machine

/-- `DSTATE`: the decoder's state (R23). -/
inductive DState where
  | seekStart1 | seekStart2 | readLengthHi | readLengthLo | readPayload | readChecksum | readEnd1 | readEnd2 | complete
  deriving DecidableEq, Repr

/-- The decoder's elements of R20. -/
structure Decoder where
  /-- `DSTATE` (R23). -/
  dstate : DState
  /-- `DLEN`: declared length of the current candidate (R24). -/
  dlen : BitVec 16
  /-- `DCNT`: payload bytes received for the current candidate (R25). -/
  dcnt : BitVec 16
  /-- `DCS`: running checksum (R26). -/
  dcs : Byte
  /-- `CAP`: every byte consumed since the current START1 candidate, in stream order (R27). -/
  cap : Bytes
  /-- `REPLAY`: stream bytes still to be scanned again, head first (R28). -/
  replay : Bytes
  /-- `INV_CNT`: Invalid events since reset, modulo 2^32 (R29). -/
  invCnt : BitVec 32
  /-- `FRM_CNT`: transitions into Complete since reset, modulo 2^32 (R30). -/
  frmCnt : BitVec 32
  deriving DecidableEq, Repr

/-- One move of the HOST toward the block (R7, R85, R96, R280). -/
inductive HostMove where
  /-- Put bytes on the command channel: a whole command, several, or a part of one (R85, R96). -/
  | send (bytes : Bytes)
  /-- Assert the reset input, or power the block on (R280). -/
  | assertReset
  deriving DecidableEq, Repr

/-- The state. `cksAcc` and `dec` are the block's architectural state, exactly the elements of R20; the other three
fields are the command channel and the HOST's side (log entry 1). -/
structure State where
  /-- `CKS_ACC`: the checksum unit's running XOR accumulator (R22). -/
  cksAcc : Byte
  /-- The decoder's eight elements (R23 to R30). -/
  dec : Decoder
  /-- Bytes on the command channel that no command has consumed yet, first byte first (R85, R92, R96). -/
  chan : Bytes
  /-- The HOST's remaining moves, next move first (R21, R35, R293). -/
  host : List HostMove
  /-- The responses so far, oldest first, one per executed command (R86, R293). -/
  responses : List Bytes
  deriving DecidableEq, Repr

/-- The decoder after reset (R36). -/
def Decoder.reset : Decoder where
  dstate := .seekStart1
  dlen := 0
  dcnt := 0
  dcs := 0
  cap := []
  replay := []
  invCnt := 0
  frmCnt := 0

/-- The machine right after power-on reset (R36, R280): every element at its reset value, no command in progress. The
HOST's list and the response record are empty until something outside gives the machine a run (log entries 1 and 4). -/
def State.reset : State where
  cksAcc := 0
  dec := Decoder.reset
  chan := []
  host := []
  responses := []

/-- Reasons the machine stops with a fault: none. The block has no traps (R256), its errors are responses with no
effect (R252), and an unfinished command is a wait, "not a fault" (R96). Nothing raises one. -/
inductive Fault where
  deriving DecidableEq, Repr

/-- Reasons an instruction has no meaning in the model. -/
inductive Refusal where
  /-- Raised only by an arm of `exec` whose instruction has no meaning yet; no arm is such. Safe: the model stops where
  the block goes on. -/
  | notModelled (mnemonic : String)
  deriving DecidableEq, Repr

/-- What executing one command gives. -/
abbrev Result := Host.Outcome State Fault Refusal

end Sys2Proof.Machine
end

