-- ==== Sys2Proof/Machine/Ops.lean ====
section
/-! DEFINITION. The named operations over the state: the checksum function, responding, raising an error, clearing the
decoder and resetting the block. Raising an error is the one shared operation for everything the spec calls an
error (R14, R252); the block has no trap entry and no trap return (R256, R257). -/

namespace Sys2Proof.Machine

/-- `cks(s)`: the single-byte XOR checksum (R120). -/
def cks (s : Bytes) : Byte := s.foldl (· ^^^ ·) 0x00#8

/-- The status codes' names (R90). -/
inductive Status where
  | ok | illegal | badLen | truncated | noFrame
  deriving DecidableEq, Repr

/-- The status codes (R90). -/
def statusCode : Status → Byte
  | .ok => 0x00#8
  | .illegal => 0x01#8
  | .badLen => 0x02#8
  | .truncated => 0x03#8
  | .noFrame => 0x04#8

/-- The codes of `DSTATE` as DEC_STATUS reports them (R23). -/
def dstateCode : DState → Byte
  | .seekStart1 => 0#8
  | .seekStart2 => 1#8
  | .readLengthHi => 2#8
  | .readLengthLo => 3#8
  | .readPayload => 4#8
  | .readChecksum => 5#8
  | .readEnd1 => 6#8
  | .readEnd2 => 7#8
  | .complete => 8#8

/-! ### Updates of the state -/

/-- `CKS_ACC <- v`. -/
def State.setCksAcc (s : State) (v : Byte) : State := { s with cksAcc := v }

/-- Write the decoder's elements. -/
def State.setDec (s : State) (d : Decoder) : State := { s with dec := d }

/-- What is left on the command channel. -/
def State.setChan (s : State) (bs : Bytes) : State := { s with chan := bs }

/-- Give the HOST the one response of a command (R86). -/
def State.addResponse (s : State) (r : Bytes) : State := { s with responses := s.responses ++ [r] }

/-! ### Ending a command -/

/-- `respond(f1, f2, ...)`: end the command with status OK and the listed fields (R14, R86). -/
def respond (s : State) (fields : Bytes) : Result := .next (s.addResponse (statusCode .ok :: fields))

/-- `raise E(info)`: end the command with status E and no other effect; the response is that single byte (R14, R86, R252). -/
def raiseError (s : State) (e : Status) : Result := .next (s.addResponse [statusCode e])

/-! ### Clearing and resetting -/

/-- `clear_candidate()` (R160). -/
def clearCandidate (d : Decoder) : Decoder :=
  { d with dstate := .seekStart1, cap := [], dlen := 0, dcnt := 0, dcs := 0 }

/-- The effect RST and power-on reset share on the elements of R20 (R36, R240, R281). -/
def resetBlock (s : State) : State :=
  { s with
    cksAcc := 0x00#8
    dec := { clearCandidate s.dec with replay := [], invCnt := 0, frmCnt := 0 } }

end Sys2Proof.Machine
end

