-- ==== Sys2Proof/Machine/Checksum.lean ====
section
/-! DEFINITION. The checksum unit's commands (40_checksum.md). -/

namespace Sys2Proof.Machine

/-- CKS_CLR: clear the accumulator (R122). -/
def execCksClr (s : State) : Result := respond (s.setCksAcc 0x00#8) []

/-- CKS_FEED: XOR a range of bytes into the accumulator and return it (R123). -/
def execCksFeed (data : Bytes) (s : State) : Result :=
  let acc := s.cksAcc ^^^ cks data
  respond (s.setCksAcc acc) [acc]

/-- CKS_READ: read the accumulator (R124). -/
def execCksRead (s : State) : Result := respond s [s.cksAcc]

end Sys2Proof.Machine
end

