-- ==== Sys2Proof/Machine/Control.lean ====
section
/-! DEFINITION. The control commands (44_control.md) and the illegal opcodes (R92). -/

namespace Sys2Proof.Machine

/-- RST: reset the whole block (R240). Issued again it changes nothing, as R240 says, although R56 calls RST not idempotent (log
entry 18). -/
def execRst (s : State) : Result := respond (resetBlock s) []

/-- An illegal opcode: response ILLEGAL, no state element changes (R92, R251, R252). -/
def execIllegal (s : State) : Result := raiseError s .illegal

end Sys2Proof.Machine
end

