-- ==== Sys2Proof/Machine/Encoder.lean ====
section
/-! DEFINITION. The frame encoder (41_frame_encoder.md). -/

namespace Sys2Proof.Machine

/-- The wire frame of a payload (R70): markers, big-endian length, payload, checksum, end markers. -/
def frameOf (payload : Bytes) : Bytes :=
  [start1, start2] ++ beBytes 2 payload.length ++ payload ++ [cks payload, end1, end2]

/-- ENC_FRAME: encode one message into a complete wire frame, or BAD_LEN when the body does not fit (R140, R141). -/
def execEncFrame (id : Byte) (body : Bytes) (s : State) : Result :=
  if maxBody < body.length then raiseError s .badLen else respond s (frameOf (id :: body))

end Sys2Proof.Machine
end

