-- ==== Sys2Proof/Machine/Flags.lean ====
section
/-! DEFINITION. The response flags (R34, R89). Each flags byte has one flag at bit 0; bits 7 to 1 are 0. -/

namespace Sys2Proof.Machine

/-- A flags byte whose bit 0 is `b` (R34, R89). -/
def flagsByte (b : Bool) : Byte := if b then 1#8 else 0#8

/-- `DONE`: 1 when `DSTATE = Complete` at the end of DEC_PUSH or DEC_TAKE (R34). -/
def doneFlags (d : Decoder) : Byte := flagsByte (decide (d.dstate = .complete))

/-- `NS_OVF`: 1 when the exact nanosecond sum did not fit 32 bits (R34, R211, R212). -/
def nsOverflow (exact : Nat) : Bool := decide (2 ^ 32 ≤ exact)

end Sys2Proof.Machine
end

