-- ==== Sys2Proof/Machine/Scanner.lean ====
section
/-! DEFINITION. The decoder's byte scanner: one scanning step per state (R160 to R170), draining the replay queue (R171)
and the scanning loop of DEC_PUSH (R172). -/

namespace Sys2Proof.Machine

/-- The decoder during one command: its elements and the command's Invalid count `ninv` (R160). -/
structure Scan where
  dec : Decoder
  ninv : Nat
  deriving DecidableEq, Repr

/-- A command starts scanning with `ninv <- 0` (R172, R173). -/
def startScan (d : Decoder) : Scan := { dec := d, ninv := 0 }

/-- `invalid()`: queue every byte after the START1 candidate, clear the candidate, count the event (R168). -/
def invalid (c : Scan) : Scan :=
  { dec :=
      { clearCandidate c.dec with
        replay := c.dec.cap.drop 1 ++ c.dec.replay
        invCnt := c.dec.invCnt + 1 }
    ninv := c.ninv + 1 }

/-- `complete()`: hold the frame and count it (R169). -/
def complete (c : Scan) : Scan :=
  { c with dec := { c.dec with dstate := .complete, frmCnt := c.dec.frmCnt + 1 } }

/-- `CAP <- CAP ++ [b]`. -/
def capture (c : Scan) (b : Byte) : Scan := { c with dec := { c.dec with cap := c.dec.cap ++ [b] } }

/-- `DSTATE <- d`. -/
def goto (c : Scan) (d : DState) : Scan := { c with dec := { c.dec with dstate := d } }

/-- `REPLAY <- r`. -/
def setReplay (c : Scan) (r : Bytes) : Scan := { c with dec := { c.dec with replay := r } }

/-- SeekStart1 looks for START1 (R161). -/
def dstepSeekStart1 (c : Scan) (b : Byte) : Scan :=
  if b = start1 then { c with dec := { c.dec with cap := [start1], dstate := .seekStart2 } } else c

/-- SeekStart2 expects START2; another 0xA0 becomes the new candidate (R162). -/
def dstepSeekStart2 (c : Scan) (b : Byte) : Scan :=
  if b = start2 then goto (capture c b) .readLengthHi
  else if b = start1 then { c with dec := { c.dec with cap := [start1] } }
  else { c with dec := clearCandidate c.dec }

/-- ReadLengthHi: the high byte of the declared length (R163). -/
def dstepReadLengthHi (c : Scan) (b : Byte) : Scan :=
  goto { c with dec := { (capture c b).dec with dlen := BitVec.ofNat 16 (b.toNat * 256) } } .readLengthLo

/-- ReadLengthLo: the low byte of the declared length; length 0 has no payload (R164). -/
def dstepReadLengthLo (c : Scan) (b : Byte) : Scan :=
  let c' : Scan :=
    { c with
      dec := { (capture c b).dec with dlen := c.dec.dlen + BitVec.ofNat 16 b.toNat, dcnt := 0, dcs := 0x00#8 } }
  if c'.dec.dlen = 0 then goto c' .readChecksum else goto c' .readPayload

/-- ReadPayload: any byte is a payload byte (R165). -/
def dstepReadPayload (c : Scan) (b : Byte) : Scan :=
  let c' : Scan :=
    { c with dec := { (capture c b).dec with dcs := c.dec.dcs ^^^ b, dcnt := c.dec.dcnt + 1 } }
  if c'.dec.dcnt = c'.dec.dlen then goto c' .readChecksum else c'

/-- ReadChecksum: compared at once with the running checksum (R166). -/
def dstepReadChecksum (c : Scan) (b : Byte) : Scan :=
  if b = c.dec.dcs then goto (capture c b) .readEnd1 else invalid (capture c b)

/-- ReadEnd1 expects END1 (R167). -/
def dstepReadEnd1 (c : Scan) (b : Byte) : Scan :=
  if b = end1 then goto (capture c b) .readEnd2 else invalid (capture c b)

/-- ReadEnd2 expects END2 (R167). -/
def dstepReadEnd2 (c : Scan) (b : Byte) : Scan :=
  if b = end2 then complete (capture c b) else invalid (capture c b)

/-- `dstep(b)`: scan one byte (R160). In Complete no byte is scanned (R170): the loops below never call it there, and
it changes nothing (log entry 7). -/
def dstep (c : Scan) (b : Byte) : Scan :=
  match c.dec.dstate with
  | .seekStart1 => dstepSeekStart1 c b
  | .seekStart2 => dstepSeekStart2 c b
  | .readLengthHi => dstepReadLengthHi c b
  | .readLengthLo => dstepReadLengthLo c b
  | .readPayload => dstepReadPayload c b
  | .readChecksum => dstepReadChecksum c b
  | .readEnd1 => dstepReadEnd1 c b
  | .readEnd2 => dstepReadEnd2 c b
  | .complete => c

/-- The loop of `drain()`, at most `fuel` scanning steps (R171). -/
def drainFuel : Nat → Scan → Scan
  | 0, c => c
  | fuel + 1, c =>
    match c.dec.replay with
    | [] => c
    | b :: rest =>
      if c.dec.dstate = .complete then c
      else drainFuel fuel (dstep (setReplay c rest) b)

/-- R177's bound on scanning steps, `S * (S + 1)` with `S = |CAP| + |REPLAY|`. -/
def drainBound (d : Decoder) : Nat :=
  let size := d.cap.length + d.replay.length
  size * (size + 1)

/-- `drain()`: scan queued bytes until the queue is empty or a frame is complete (R171). The bound of R177 is never what
ends it: `drain_eq` in Laws/Scan.lean gives the while loop of R171 back (log entry 6). -/
def drain (c : Scan) : Scan := drainFuel (drainBound c.dec) c

/-- The loop of DEC_PUSH (R172): scan the bytes while the decoder is not Complete, draining after each, and give `k`, the
number of bytes consumed. -/
def scanBytes : Scan → Bytes → Scan × Nat
  | c, [] => (c, 0)
  | c, b :: rest =>
    if c.dec.dstate = .complete then (c, 0)
    else
      let r := scanBytes (drain (dstep c b)) rest
      (r.1, r.2 + 1)

end Sys2Proof.Machine
end

