-- ==== Sys2Proof/Machine/FrameDecoder.lean ====
section
/-! DEFINITION. The frame decoder's commands (42_frame_decoder.md, section 3). -/

namespace Sys2Proof.Machine

/-- DEC_PUSH: offer stream bytes to the decoder (R172). The response is `k`, `inv`, `flags` (R89). -/
def execDecPush (data : Bytes) (s : State) : Result :=
  let r := scanBytes (startScan s.dec) data
  respond (s.setDec r.1.dec) (beBytes 2 r.2 ++ beBytes 4 r.1.ninv ++ [doneFlags r.1.dec])

/-- The held frame's `L`, `payload` and `cs` as DEC_TAKE reports them: `DLEN`, `CAP[4..4+L)`, `CAP[4+L]` (R38, R89, R173).
The checksum byte is read as a slice of one byte (log entry 9). -/
def heldFrameFields (d : Decoder) : Bytes :=
  beBytes 2 d.dlen.toNat ++ slice d.cap 4 (4 + d.dlen.toNat) ++ slice d.cap (4 + d.dlen.toNat) (5 + d.dlen.toNat)

/-- DEC_TAKE: take the held frame and release the decoder, or NO_FRAME (R173). -/
def execDecTake (s : State) : Result :=
  if s.dec.dstate = .complete then
    let c := drain (startScan (clearCandidate s.dec))
    respond (s.setDec c.dec) (heldFrameFields s.dec ++ beBytes 4 c.ninv ++ [doneFlags c.dec])
  else raiseError s .noFrame

/-- The 20 result bytes of DEC_STATUS (R89, R174). -/
def statusFields (d : Decoder) : Bytes :=
  [dstateCode d.dstate] ++ beBytes 2 d.dlen.toNat ++ beBytes 2 d.dcnt.toNat ++ [d.dcs]
    ++ beBytes 3 d.cap.length ++ beBytes 3 d.replay.length ++ beBytes 4 d.invCnt.toNat ++ beBytes 4 d.frmCnt.toNat

/-- DEC_STATUS: read the decoder's state (R174). -/
def execDecStatus (s : State) : Result := respond s (statusFields s.dec)

/-- DEC_FLUSH: abandon the decoder's progress, keeping the counters (R175). By R175's pseudocode a second DEC_FLUSH changes nothing,
although R56 calls DEC_FLUSH not idempotent (log entry 18). -/
def execDecFlush (s : State) : Result :=
  respond (s.setDec { clearCandidate s.dec with replay := [] }) []

end Sys2Proof.Machine
end

