-- ==== Sys2Proof/Machine/GpsConverter.lean ====
section
/-! DEFINITION. The GPS time converter (43_gps_time.md). -/

namespace Sys2Proof.Machine

/-- `gdecode(p)`: the time record of a payload, at offsets 16 to 28 (R210). -/
def gdecode (p : Bytes) : GpsTime := timeRecordAt p timeRecordOffset

/-- `sec_exact` (R211). -/
def secExact (t : GpsTime) : Int :=
  gpsEpochOffset + (t.wn.toNat : Int) * secondsPerWeek + ((t.tow.toNat / 1000 : Nat) : Int) - int8 t.defleap

/-- `ns_exact` (R211). -/
def nsExact (t : GpsTime) : Nat := t.tow.toNat % 1000 * 1000000 + t.stow.toNat

/-- What `gepoch` returns: `(sec, ns, NS_OVF)` (R211). -/
structure Epoch where
  /-- Unix seconds, exact; every record's value fits an i64 (R217). -/
  sec : Int
  /-- Nanosecond remainder, u32, not normalised (R212). -/
  ns : BitVec 32
  /-- `NS_OVF` (R212). -/
  nsOvf : Bool
  deriving DecidableEq, Repr

/-- `gepoch(t)` (R211, R212). -/
def gepoch (t : GpsTime) : Epoch where
  sec := secExact t
  ns := BitVec.ofNat 32 (nsExact t)
  nsOvf := nsOverflow (nsExact t)

/-- An epoch as a response carries it: `sec` (8 bytes, two's complement), `ns` (4 bytes), `flags` (R53, R89, R214). -/
def epochFields (e : Epoch) : Bytes :=
  beBytes 8 (e.sec % 2 ^ 64).toNat ++ beBytes 4 e.ns.toNat ++ [flagsByte e.nsOvf]

/-- GTC_DECODE: extract the time record from a response payload, or TRUNCATED (R213). -/
def execGtcDecode (p : Bytes) (s : State) : Result :=
  if p.length < minTimePayload then raiseError s .truncated else respond s (timeRecordBytes (gdecode p))

/-- GTC_EPOCH: convert a time record to a Unix timestamp (R214). -/
def execGtcEpoch (t : GpsTime) (s : State) : Result := respond s (epochFields (gepoch t))

/-- GTC_CONVERT: decode and convert in one command, or TRUNCATED (R215). -/
def execGtcConvert (p : Bytes) (s : State) : Result :=
  if p.length < minTimePayload then raiseError s .truncated
  else respond s (timeRecordBytes (gdecode p) ++ epochFields (gepoch (gdecode p)))

end Sys2Proof.Machine
end

