-- ==== Sys2Proof/Machine/Dispatch.lean ====
section
/-! DEFINITION. One arm per command, each one direct call of its meaning. -/

namespace Sys2Proof.Machine

def exec (i : Instr) (s : State) : Host.Outcome State Fault Refusal :=
  match i with
  | .rst => Sys2Proof.Machine.execRst s
  | .cksClr => Sys2Proof.Machine.execCksClr s
  | .cksFeed data => Sys2Proof.Machine.execCksFeed data s
  | .cksRead => Sys2Proof.Machine.execCksRead s
  | .encFrame id body => Sys2Proof.Machine.execEncFrame id body s
  | .decPush data => Sys2Proof.Machine.execDecPush data s
  | .decTake => Sys2Proof.Machine.execDecTake s
  | .decStatus => Sys2Proof.Machine.execDecStatus s
  | .decFlush => Sys2Proof.Machine.execDecFlush s
  | .gtcDecode p => Sys2Proof.Machine.execGtcDecode p s
  | .gtcEpoch t => Sys2Proof.Machine.execGtcEpoch t s
  | .gtcConvert p => Sys2Proof.Machine.execGtcConvert p s
  | .illegal _ => Sys2Proof.Machine.execIllegal s

end Sys2Proof.Machine
end

