-- ==== Sys2Proof/Decode.lean ====
section
/-! DEFINITION. The command channel's encoding: the opcode map (R87), the decoder (R88, R92, R94-R96) and the encoder
(R88). Decoding is total: a byte stream that starts with a whole command gives that command and the rest of the
stream, and one that does not is rejected by name, because the block waits for the rest (R96). -/

namespace Sys2Proof

open Sys2Proof.Machine

/-- The twelve opcodes of the opcode map (R87). -/
inductive Opcode where
  | rst | cksClr | cksFeed | cksRead | encFrame | decPush | decTake | decStatus | decFlush
  | gtcDecode | gtcEpoch | gtcConvert
  deriving DecidableEq, Repr

/-- The opcode values (R87). -/
def opcodeByte : Opcode → Byte
  | .rst => 0x01#8
  | .cksClr => 0x10#8
  | .cksFeed => 0x11#8
  | .cksRead => 0x12#8
  | .encFrame => 0x20#8
  | .decPush => 0x30#8
  | .decTake => 0x31#8
  | .decStatus => 0x32#8
  | .decFlush => 0x33#8
  | .gtcDecode => 0x40#8
  | .gtcEpoch => 0x41#8
  | .gtcConvert => 0x42#8

/-- The rows of the opcode map in its order (R87). -/
def opcodeMap : List Opcode :=
  [.rst, .cksClr, .cksFeed, .cksRead, .encFrame, .decPush, .decTake, .decStatus, .decFlush,
   .gtcDecode, .gtcEpoch, .gtcConvert]

/-- The opcode a byte stands for, all 8 bits matched; `none` for the illegal values of R92. -/
def opcodeOf (b : Byte) : Option Opcode := opcodeMap.find? (fun o => opcodeByte o == b)

/-- Why the channel holds no whole command yet (R96). -/
inductive Missing where
  /-- The channel is empty: the block is idle between commands (R262). -/
  | emptyChannel
  /-- Only part of a command has been delivered (R96). -/
  | partialCommand
  deriving DecidableEq, Repr

/-- What decoding a byte stream gives. -/
inductive Decoded where
  /-- A whole command and the bytes after it. -/
  | command (i : Instr) (rest : Bytes)
  /-- No whole command: the block waits (R96). -/
  | waiting (why : Missing)
  deriving DecidableEq, Repr

/-- The layout `n` (2 bytes, big-endian), then `n` bytes (R88): the `n` bytes go to `mk`. -/
def decodeCounted (mk : Bytes → Instr) : Bytes → Decoded
  | hi :: lo :: rest =>
    if be [hi, lo] ≤ rest.length then .command (mk (rest.take (be [hi, lo]))) (rest.drop (be [hi, lo]))
    else .waiting .partialCommand
  | _ => .waiting .partialCommand

/-- The operand fields of each opcode, read from the bytes after the opcode byte (R88, R95). -/
def decodeOperands (o : Opcode) (bs : Bytes) : Decoded :=
  match o with
  | .rst => .command .rst bs
  | .cksClr => .command .cksClr bs
  | .cksFeed => decodeCounted .cksFeed bs
  | .cksRead => .command .cksRead bs
  | .encFrame =>
    match bs with
    | id :: rest => decodeCounted (.encFrame id) rest
    | [] => .waiting .partialCommand
  | .decPush => decodeCounted .decPush bs
  | .decTake => .command .decTake bs
  | .decStatus => .command .decStatus bs
  | .decFlush => .command .decFlush bs
  | .gtcDecode => decodeCounted .gtcDecode bs
  | .gtcEpoch =>
    if 13 ≤ bs.length then .command (.gtcEpoch (timeRecordAt bs 0)) (bs.drop 13)
    else .waiting .partialCommand
  | .gtcConvert => decodeCounted .gtcConvert bs

/-- Decode the first command of a byte stream (R85, R94). An opcode byte outside the map is a command of length 1 (R92). -/
def decode : Bytes → Decoded
  | [] => .waiting .emptyChannel
  | op :: bs =>
    match opcodeOf op with
    | none => .command (.illegal op) bs
    | some o => decodeOperands o bs

/-- The count field `n` and its bytes (R88). -/
def encodeCounted (data : Bytes) : Bytes := beBytes 2 data.length ++ data

/-- The bytes of a command (R88). -/
def encode : Instr → Bytes
  | .rst => [opcodeByte .rst]
  | .cksClr => [opcodeByte .cksClr]
  | .cksFeed data => opcodeByte .cksFeed :: encodeCounted data
  | .cksRead => [opcodeByte .cksRead]
  | .encFrame id body => opcodeByte .encFrame :: id :: encodeCounted body
  | .decPush data => opcodeByte .decPush :: encodeCounted data
  | .decTake => [opcodeByte .decTake]
  | .decStatus => [opcodeByte .decStatus]
  | .decFlush => [opcodeByte .decFlush]
  | .gtcDecode p => opcodeByte .gtcDecode :: encodeCounted p
  | .gtcEpoch t => opcodeByte .gtcEpoch :: timeRecordBytes t
  | .gtcConvert p => opcodeByte .gtcConvert :: encodeCounted p
  | .illegal op => [op]

/-- The total length of a command from its opcode and its `n` field (R88, R94); 1 for an illegal opcode (R92). -/
def commandLength (o : Option Opcode) (n : Nat) : Nat :=
  match o with
  | some .cksFeed | some .decPush | some .gtcDecode | some .gtcConvert => 3 + n
  | some .encFrame => 4 + n
  | some .gtcEpoch => 14
  | _ => 1

/-- Where the `n` field of a command starts (R94): bytes 2 to 3 for ENC_FRAME, bytes 1 to 2 elsewhere. -/
def countOffset (o : Option Opcode) : Nat := if o = some .encFrame then 2 else 1

/-- The total length of the command a byte stream starts with, missing bytes read as 0 (R94). -/
def commandLengthOf (bs : Bytes) : Nat :=
  let padded := bs ++ List.replicate 4 0#8
  let o := opcodeOf (padded.headD 0#8)
  commandLength o (opRead padded (countOffset o) 2)

/-- The bytes of an instruction whose bits are `w`, numbered as spec/opcode_table.json numbers them: byte `k` is bits
`8k+7` to `8k`, the first byte goes down the channel first. The bits above `nbits` are 0: operand bytes of zeros follow, as
many as a command that begins so can have (R94). -/
def tableWordStream (nbits w : Nat) : Bytes :=
  let given := (List.range (nbits / 8)).map (fun k => BitVec.ofNat 8 (w / 256 ^ k))
  given ++ List.replicate (commandLengthOf given) 0#8

/-- The bytes of that instruction alone: those the decoder consumes. -/
def tableWordBytes (nbits w : Nat) : Bytes :=
  match decode (tableWordStream nbits w) with
  | .command _ rest => (tableWordStream nbits w).take ((tableWordStream nbits w).length - rest.length)
  | .waiting _ => tableWordStream nbits w

/-- The instruction the decoder reads from a word of the opcode table. -/
def decodeTableWord (nbits w : Nat) : Option Instr :=
  match decode (tableWordStream nbits w) with
  | .command i _ => some i
  | .waiting _ => none

end Sys2Proof
end

