-- ==== Sys2Proof/Machine/HostSide.lean ====
section
/-! DEFINITION. The channel and the HOST's moves: fetching the next whole command (R85, R92, R94), delivering bytes (R96) and
asserting the reset input (R280). -/

namespace Sys2Proof.Machine

/-- The next whole command on the channel and the state with its bytes consumed; `none` while the block waits (R85, R96). -/
def fetch (s : State) : Option (Instr × State) :=
  match decode s.chan with
  | .command i rest => some (i, s.setChan rest)
  | .waiting _ => none

/-- Power-on reset: every element at its reset value and a partly delivered command discarded (R36, R280). It is no command,
so it gives no response (R281). -/
def powerOnReset (s : State) : State := (resetBlock s).setChan []

/-- The HOST's next move, made only while the block has no whole command to execute (R7, R85; log entry 2). With no move
left nothing changes: the block waits, and its state persists (R96, R262; log entry 3). -/
def hostTurn (s : State) : State :=
  match s.host with
  | [] => s
  | .send bs :: rest => { s with chan := s.chan ++ bs, host := rest }
  | .assertReset :: rest => powerOnReset { s with host := rest }

end Sys2Proof.Machine
end

