-- ==== Sys2Proof/Machine/Step.lean ====
section
/-! DEFINITION. One step of the machine: the block executes the whole command at the front of the channel as one atomic step
(R6, R58); while there is none, the HOST makes its next move, or nothing happens (R7, R96). -/

namespace Sys2Proof.Machine

def step (s : State) : Host.Outcome State Fault Refusal :=
  match fetch s with
  | some (i, s') => exec i s'
  | none => .next (hostTurn s)

/-- `s` with the instruction of a word of the opcode table at the front of the command channel, where `step` takes its next
command: the HOST has delivered it (R85; log entry 4). -/
def State.withFetchWord (s : State) (nbits w : Nat) : State := s.setChan (tableWordBytes nbits w ++ s.chan)

end Sys2Proof.Machine
end

