-- ==== Sys2Proof/Config.lean ====
section
/-! DEFINITION. What an implementation fixes: the four OPEN parameters of R11. The spec gives them no values, so the
model takes them as an argument and every claim that names them holds for all of them (item U8, D23; log entry 10).
The block's fixed parameters (R10) are no configuration and stand in Machine/Operands.lean. -/

namespace Sys2Proof

/-- `MODE_HOT`, `MODE_WARM`, `MODE_COLD` and `REBOOT_TAIL` (R11). Only the pseudo-command REBOOT (R102) uses them. -/
structure RebootParams where
  /-- `MODE_HOT`, an 8-bit reboot-mode code. -/
  modeHot : Byte
  /-- `MODE_WARM`, an 8-bit reboot-mode code. -/
  modeWarm : Byte
  /-- `MODE_COLD`, an 8-bit reboot-mode code. -/
  modeCold : Byte
  /-- `REBOOT_TAIL`, the 6 bytes of the reboot payload that the document does not list. -/
  tail : Vector Byte 6
  deriving DecidableEq, Repr

end Sys2Proof
end

