-- ==== Sys2Proof/Machine/Pseudo.lean ====
section
/-! DEFINITION. The pseudo-commands (R100 to R103), which expand to commands of the block. They carry the outbound command
layouts of R77, R79 and R80; the command builder's wall clock is the HOST's (R5). -/

namespace Sys2Proof.Machine

/-- The reboot modes (R102). -/
inductive RebootMode where
  | hot | warm | cold
  deriving DecidableEq, Repr

/-- The code of a reboot mode: an OPEN parameter (R11, R102). -/
def rebootModeByte (p : RebootParams) : RebootMode → Byte
  | .hot => p.modeHot
  | .warm => p.modeWarm
  | .cold => p.modeCold

/-- The pseudo-commands with their operands. -/
inductive Pseudo where
  /-- TIMEQ (R100). -/
  | timeq
  /-- CKS_CALC bytes (R101). -/
  | cksCalc (data : Bytes)
  /-- REBOOT mode, year, month, day, hour, minute, second (R102). -/
  | reboot (mode : RebootMode) (year : BitVec 16) (month day hour minute second : Byte)
  /-- ACK id (R103). -/
  | ack (id : Byte)
  /-- NACK id (R103). -/
  | nack (id : Byte)
  deriving DecidableEq, Repr

/-- The body of the reboot request: payload offsets 1 to 14 of R79 (R102). -/
def rebootBody (p : RebootParams) (mode : RebootMode) (year : BitVec 16) (month day hour minute second : Byte) : Bytes :=
  [rebootModeByte p mode] ++ beBytes 2 year.toNat ++ [month, day, hour, minute, second] ++ p.tail.toList

/-- The commands a pseudo-command expands to (R100 to R103). -/
def expand (p : RebootParams) : Pseudo → List Instr
  | .timeq => [.encFrame 0x64#8 [0x20#8]]
  | .cksCalc data => [.cksClr, .cksFeed data]
  | .reboot mode year month day hour minute second =>
    [.encFrame 0x01#8 (rebootBody p mode year month day hour minute second)]
  | .ack id => [.encFrame 0x83#8 [id]]
  | .nack id => [.encFrame 0x84#8 [id]]

end Sys2Proof.Machine
end

