-- ==== Sys2Proof/Machine/Assembler.lean ====
section
/-! DEFINITION. The assembler: the text form of programs (R98) and its translation to the command channel's bytes (R99), with
the refusals of R99 by name. What the text may look like beyond the words of R98 is log entry 14. -/

namespace Sys2Proof.Machine

/-- Why a line is refused. -/
inductive AsmError where
  /-- A character no line may hold, or a malformed number. -/
  | badToken
  /-- The line does not begin with a mnemonic of R87 or a pseudo-command of R100 to R103. -/
  | unknownMnemonic
  /-- The operands have not the form R98 gives the mnemonic. -/
  | badOperands
  /-- A value outside 0 to 255 in a byte position, or a year outside 0 to 65535 (R99, R102). -/
  | valueOutOfRange
  /-- A record field outside its type's range (R9, R99). -/
  | fieldOutOfRange
  /-- A byte list longer than 65535 bytes (R99). -/
  | listTooLong
  deriving DecidableEq, Repr

/-- A result or a refusal by name. -/
inductive Asm (α : Type) where
  | done (a : α)
  | refused (e : AsmError)
  deriving DecidableEq, Repr

/-- Go on with a result; a refusal stays. -/
def Asm.bind {α β : Type} (x : Asm α) (f : α → Asm β) : Asm β :=
  match x with
  | .done a => f a
  | .refused e => .refused e

/-! ### Tokens -/

/-- The tokens of a line. -/
inductive Tok where
  | word (w : List Char)
  | num (v : Int)
  | comma | lbrack | rbrack | lbrace | rbrace | equals
  deriving DecidableEq, Repr

/-- The value of a digit in base `base`. -/
def digitValue (base : Nat) (c : Char) : Option Nat :=
  let n := c.toNat
  let v :=
    if 48 ≤ n ∧ n ≤ 57 then n - 48
    else if 65 ≤ n ∧ n ≤ 70 then n - 55
    else if 97 ≤ n ∧ n ≤ 102 then n - 87
    else base
  if v < base then some v else none

/-- The value of a digit string, most significant digit first, after the digits worth `acc`. -/
def digitsValue (base : Nat) : Nat → List Char → Option Nat
  | acc, [] => some acc
  | acc, c :: rest =>
    match digitValue base c with
    | some d => digitsValue base (acc * base + d) rest
    | none => none

/-- A natural number: `0x` and hexadecimal digits, or decimal digits (R98). -/
def natOf : List Char → Option Nat
  | [] => none
  | ['0', 'x'] => none
  | '0' :: 'x' :: digits => digitsValue 16 0 digits
  | digits => digitsValue 10 0 digits

/-- Does a word start a number: a digit or a minus sign? -/
def startsNumber (c : Char) : Bool := c == '-' || (digitValue 10 c).isSome

/-- The token of a run of word characters: a number if it starts like one, else a word. -/
def tokOf (w : List Char) : Asm Tok :=
  match w with
  | [] => .refused .badToken
  | c :: rest =>
    if startsNumber c then
      if c = '-' then
        match natOf rest with
        | some n => .done (.num (-(n : Int)))
        | none => .refused .badToken
      else
        match natOf w with
        | some n => .done (.num n)
        | none => .refused .badToken
    else .done (.word w)

/-- Is `c` part of a word or number? -/
def isWordChar (c : Char) : Bool := c.isAlphanum || c == '_' || c == '-'

/-- Put the pending word, given backwards, in front of the tokens after it. -/
def flushWord (pending : List Char) (toks : Asm (List Tok)) : Asm (List Tok) :=
  match pending with
  | [] => toks
  | _ => (tokOf pending.reverse).bind fun t => toks.bind fun ts => .done (t :: ts)

/-- The token of a punctuation character. -/
def punctuation (c : Char) : Option Tok :=
  if c = ',' then some .comma
  else if c = '[' then some .lbrack
  else if c = ']' then some .rbrack
  else if c = Char.ofNat 123 then some .lbrace
  else if c = Char.ofNat 125 then some .rbrace
  else if c = '=' then some .equals
  else none

/-- The tokens of a line: a comment runs from `;` to its end (R98). `pending` is the current word, backwards. -/
def lexLine : List Char → List Char → Asm (List Tok)
  | pending, [] => flushWord pending (.done [])
  | pending, c :: rest =>
    if c = ';' then flushWord pending (.done [])
    else if isWordChar c then lexLine (c :: pending) rest
    else if c.isWhitespace then flushWord pending (lexLine [] rest)
    else
      match punctuation c with
      | some t => flushWord pending ((lexLine [] rest).bind fun ts => .done (t :: ts))
      | none => .refused .badToken

/-! ### Operands -/

/-- A byte position: 0 to 255 (R99). -/
def byteOf (v : Int) : Asm Byte :=
  if 0 ≤ v ∧ v ≤ 255 then .done (BitVec.ofInt 8 v) else .refused .valueOutOfRange

/-- Byte positions in order. -/
def bytesOf : List Int → Asm Bytes
  | [] => .done []
  | v :: rest => (byteOf v).bind fun b => (bytesOf rest).bind fun bs => .done (b :: bs)

/-- An unsigned record field of `w` bits (R9, R99). -/
def unsignedField (w : Nat) (v : Int) : Asm (BitVec w) :=
  if 0 ≤ v ∧ v < 2 ^ w then .done (BitVec.ofInt w v) else .refused .fieldOutOfRange

/-- An i8 record field, -128 to 127 (R9, R99). -/
def signedField (v : Int) : Asm Byte :=
  if -128 ≤ v ∧ v ≤ 127 then .done (BitVec.ofInt 8 v) else .refused .fieldOutOfRange

/-- The values after the first of a byte list, up to its closing bracket at the end of the line. -/
def listTail : List Tok → Option (List Int)
  | [.rbrack] => some []
  | .comma :: .num v :: rest => (listTail rest).map (v :: ·)
  | _ => none

/-- A byte list `[b0, b1, ...]` that ends the line (R98); its length is the count field, at most 65535 (R99). -/
def byteList (toks : List Tok) : Asm Bytes :=
  let values :=
    match toks with
    | [.lbrack, .rbrack] => some []
    | .lbrack :: .num v :: rest => (listTail rest).map (v :: ·)
    | _ => none
  match values with
  | none => .refused .badOperands
  | some vs => if maxLen < vs.length then .refused .listTooLong else bytesOf vs

/-- A record of GTC_EPOCH, its fields in the order R98 writes them. -/
def record (toks : List Tok) : Asm GpsTime :=
  match toks with
  | [.lbrace, .word n1, .equals, .num tow, .comma, .word n2, .equals, .num stow, .comma, .word n3, .equals, .num wn, .comma,
      .word n4, .equals, .num defleap, .comma, .word n5, .equals, .num curleap, .comma, .word n6, .equals, .num valid,
      .rbrace] =>
    if [n1, n2, n3, n4, n5, n6] =
        ["tow".toList, "stow".toList, "wn".toList, "defleap".toList, "curleap".toList, "valid".toList] then
      (unsignedField 32 tow).bind fun tow => (unsignedField 32 stow).bind fun stow =>
      (unsignedField 16 wn).bind fun wn => (signedField defleap).bind fun defleap =>
      (signedField curleap).bind fun curleap => (unsignedField 8 valid).bind fun valid =>
      .done { tow := tow, stow := stow, wn := wn, defleap := defleap, curleap := curleap, valid := valid }
    else .refused .badOperands
  | _ => .refused .badOperands

/-- The reboot mode a word names (R102). -/
def rebootModeOf (w : List Char) : Option RebootMode :=
  if w = "HOT".toList then some .hot
  else if w = "WARM".toList then some .warm
  else if w = "COLD".toList then some .cold
  else none

/-- The operands of REBOOT: a mode, a 16-bit year and five bytes (R102). -/
def rebootOperands (toks : List Tok) : Asm Pseudo :=
  match toks with
  | [.word w, .comma, .num year, .comma, .num month, .comma, .num day, .comma, .num hour, .comma, .num minute, .comma,
      .num second] =>
    match rebootModeOf w with
    | none => .refused .badOperands
    | some mode =>
      if 0 ≤ year ∧ year ≤ 65535 then
        (byteOf month).bind fun month => (byteOf day).bind fun day => (byteOf hour).bind fun hour =>
        (byteOf minute).bind fun minute => (byteOf second).bind fun second =>
        .done (.reboot mode (BitVec.ofInt 16 year) month day hour minute second)
      else .refused .valueOutOfRange
  | _ => .refused .badOperands

/-- A mnemonic without operands. -/
def noOperands {α : Type} (a : α) (toks : List Tok) : Asm α := if toks = [] then .done a else .refused .badOperands

/-- A single byte operand. -/
def oneByte (toks : List Tok) : Asm Byte :=
  match toks with
  | [.num v] => byteOf v
  | _ => .refused .badOperands

/-- ENC_FRAME's operands: a byte and a byte list (R98). -/
def encFrameOperands (toks : List Tok) : Asm Instr :=
  match toks with
  | .num id :: .comma :: rest => (byteOf id).bind fun id => (byteList rest).bind fun body => .done (.encFrame id body)
  | _ => .refused .badOperands

/-! ### The operand forms of R98 as tokens -/

/-- The tokens of a byte list `[b0, b1, ...]` (R98). -/
def listTokens (vs : List Int) : List Tok := .lbrack :: ((vs.map Tok.num).intersperse .comma ++ [.rbrack])

/-- The tokens of a record of GTC_EPOCH (R98). -/
def recordTokens (tow stow wn defleap curleap valid : Int) : List Tok :=
  [.lbrace, .word "tow".toList, .equals, .num tow, .comma, .word "stow".toList, .equals, .num stow, .comma,
    .word "wn".toList, .equals, .num wn, .comma, .word "defleap".toList, .equals, .num defleap, .comma,
    .word "curleap".toList, .equals, .num curleap, .comma, .word "valid".toList, .equals, .num valid, .rbrace]

/-- The tokens of the operands of REBOOT (R102). -/
def rebootTokens (mode : List Char) (year month day hour minute second : Int) : List Tok :=
  [.word mode, .comma, .num year, .comma, .num month, .comma, .num day, .comma, .num hour, .comma, .num minute, .comma,
    .num second]

/-! ### Lines and programs -/

/-- The commands of a line of tokens: none for an empty line, one for a mnemonic of R87, and the expansion of a
pseudo-command (R98, R100 to R103). -/
def assembleTokens (p : RebootParams) (toks : List Tok) : Asm (List Instr) :=
  match toks with
  | [] => .done []
  | .word m :: ops =>
    if m = "RST".toList then noOperands [.rst] ops
    else if m = "CKS_CLR".toList then noOperands [.cksClr] ops
    else if m = "CKS_FEED".toList then (byteList ops).bind fun d => .done [.cksFeed d]
    else if m = "CKS_READ".toList then noOperands [.cksRead] ops
    else if m = "ENC_FRAME".toList then (encFrameOperands ops).bind fun i => .done [i]
    else if m = "DEC_PUSH".toList then (byteList ops).bind fun d => .done [.decPush d]
    else if m = "DEC_TAKE".toList then noOperands [.decTake] ops
    else if m = "DEC_STATUS".toList then noOperands [.decStatus] ops
    else if m = "DEC_FLUSH".toList then noOperands [.decFlush] ops
    else if m = "GTC_DECODE".toList then (byteList ops).bind fun d => .done [.gtcDecode d]
    else if m = "GTC_EPOCH".toList then (record ops).bind fun t => .done [.gtcEpoch t]
    else if m = "GTC_CONVERT".toList then (byteList ops).bind fun d => .done [.gtcConvert d]
    else if m = "TIMEQ".toList then noOperands (expand p .timeq) ops
    else if m = "CKS_CALC".toList then (byteList ops).bind fun d => .done (expand p (.cksCalc d))
    else if m = "REBOOT".toList then (rebootOperands ops).bind fun q => .done (expand p q)
    else if m = "ACK".toList then (oneByte ops).bind fun b => .done (expand p (.ack b))
    else if m = "NACK".toList then (oneByte ops).bind fun b => .done (expand p (.nack b))
    else .refused .unknownMnemonic
  | _ => .refused .unknownMnemonic

/-- The commands of one line of text (R98). -/
def assembleLine (p : RebootParams) (line : List Char) : Asm (List Instr) := (lexLine [] line).bind (assembleTokens p)

/-- The lines of a text, split at line feeds. -/
def linesOf : List Char → List (List Char)
  | [] => [[]]
  | c :: rest =>
    if c = '\n' then [] :: linesOf rest
    else
      match linesOf rest with
      | [] => [[c]]
      | l :: ls => (c :: l) :: ls

/-- The commands of the lines of a program, in order: one line after the other (R98). -/
def assembleLines (p : RebootParams) : List (List Char) → Asm (List Instr)
  | [] => .done []
  | l :: rest => (assembleLine p l).bind fun is => (assembleLines p rest).bind fun more => .done (is ++ more)

/-- The commands of a program text (R98). -/
def assembleProgram (p : RebootParams) (text : List Char) : Asm (List Instr) := assembleLines p (linesOf text)

/-- The command-channel bytes of a program text: each command encoded by R88 (R99). -/
def assembleBytes (p : RebootParams) (text : List Char) : Asm Bytes :=
  (assembleProgram p text).bind fun is => .done (is.map encode).flatten

/-! ### The text of a command (R98) -/

/-- The digit character of a value below 16, in upper case. -/
def digitChar (v : Nat) : Char := if v < 10 then Char.ofNat (48 + v) else Char.ofNat (55 + v)

/-- The `k` low digits of `n` in base `base`, most significant first. -/
def digitsOf (base : Nat) : Nat → Nat → List Char
  | 0, _ => []
  | k + 1, n => digitChar (n / base ^ k % base) :: digitsOf base k n

/-- A hexadecimal number of `k` digits (R98). -/
def hexText (k n : Nat) : List Char := '0' :: 'x' :: digitsOf 16 k n

/-- A number in decimal, of `k` digits, a minus sign in front of a negative one (R98; the sign is log entry 14). -/
def decText (k : Nat) (v : Int) : List Char :=
  if v < 0 then '-' :: digitsOf 10 k v.natAbs else digitsOf 10 k v.natAbs

/-- A byte, written `0xNN` (R98). -/
def byteText (b : Byte) : List Char := hexText 2 b.toNat

/-- A byte list, written `[b0, b1, ...]` (R98). -/
def listText (bs : Bytes) : List Char := '[' :: (((bs.map byteText).intersperse [',', ' ']).flatten ++ [']'])

/-- A record, its fields in the order R98 writes them. -/
def recordText (t : GpsTime) : List Char :=
  Char.ofNat 123 :: ("tow=".toList ++ (decText 10 t.tow.toNat ++ (", stow=".toList ++ (decText 10 t.stow.toNat ++
    (", wn=".toList ++ (decText 5 t.wn.toNat ++ (", defleap=".toList ++ (decText 3 t.defleap.toInt ++
    (", curleap=".toList ++ (decText 3 t.curleap.toInt ++ (", valid=".toList ++ (decText 3 t.valid.toNat ++
    [Char.ofNat 125]))))))))))))

/-- The line of a command (R98); an illegal opcode has none. -/
def commandText : Instr → List Char
  | .rst => "RST".toList
  | .cksClr => "CKS_CLR".toList
  | .cksFeed data => "CKS_FEED ".toList ++ listText data
  | .cksRead => "CKS_READ".toList
  | .encFrame id body => "ENC_FRAME ".toList ++ (byteText id ++ (", ".toList ++ listText body))
  | .decPush data => "DEC_PUSH ".toList ++ listText data
  | .decTake => "DEC_TAKE".toList
  | .decStatus => "DEC_STATUS".toList
  | .decFlush => "DEC_FLUSH".toList
  | .gtcDecode payload => "GTC_DECODE ".toList ++ listText payload
  | .gtcEpoch t => "GTC_EPOCH ".toList ++ recordText t
  | .gtcConvert payload => "GTC_CONVERT ".toList ++ listText payload
  | .illegal _ => []

/-- A program of these commands, one a line (R98). -/
def programText : List Instr → List Char
  | [] => []
  | i :: rest => commandText i ++ '\n' :: programText rest

end Sys2Proof.Machine
end

