-- ==== Sys2Proof/Machine/Run.lean ====
section
/-! DEFINITION. A run of the block (R293): a finite list of commands, executed in order from a start state. Its observation is
the responses and the state after the last command, both in the resulting State. -/

namespace Sys2Proof.Machine

/-- Execute a list of commands in issue order (R58, R293). -/
def execAll : List Instr → State → Result
  | [], s => .next s
  | i :: rest, s =>
    match exec i s with
    | .next s' => execAll rest s'
    | .fault r => .fault r
    | .refused r => .refused r

end Sys2Proof.Machine
end

