-- ==== Sys2Proof/WellFormed.lean ====
section
/-! DEFINITION. Which terms of Instr are commands the channel can carry: a count field `n` is 0 to 65535 (R88, R99), and
an illegal command is an opcode byte outside the opcode map (R92). -/

namespace Sys2Proof

/-- A byte list fits the 16-bit count field `n` (R88, R99). -/
abbrev Bytes.FitsCount (s : Bytes) : Prop := s.length ≤ Machine.maxLen

/-- The command has an encoding on the command channel (R88, R92, R93). -/
def Instr.WellFormed : Instr → Bool
  | .rst => true
  | .cksClr => true
  | .cksFeed data => decide (Bytes.FitsCount data)
  | .cksRead => true
  | .encFrame _ body => decide (Bytes.FitsCount body)
  | .decPush data => decide (Bytes.FitsCount data)
  | .decTake => true
  | .decStatus => true
  | .decFlush => true
  | .gtcDecode p => decide (Bytes.FitsCount p)
  | .gtcEpoch _ => true
  | .gtcConvert p => decide (Bytes.FitsCount p)
  | .illegal op => decide (opcodeOf op = none)

end Sys2Proof
end

