-- ==== Sys2Proof/Safety.lean ====
section
/-! DEFINITION. What counts as a good state, in the terms the claims use: the decoder invariants of R24 to R28, R31 and R32, and
what it means that a command responds. -/

namespace Sys2Proof.Machine

/-! ### The decoder's invariant -/

/-- The value R24 gives `DLEN` in each state. -/
def dlenByState (d : DState) (cap : Bytes) : Nat :=
  match d with
  | .seekStart1 | .seekStart2 | .readLengthHi => 0
  | .readLengthLo => be (slice cap 2 3) * 256
  | .readPayload | .readChecksum | .readEnd1 | .readEnd2 | .complete => be (slice cap 2 4)

/-- The length R27 gives `CAP` in each state. -/
def capLengthByState (d : DState) (dlen dcnt : Nat) : Nat :=
  match d with
  | .seekStart1 => 0
  | .seekStart2 => 1
  | .readLengthHi => 2
  | .readLengthLo => 3
  | .readPayload => 4 + dcnt
  | .readChecksum => 4 + dlen
  | .readEnd1 => 5 + dlen
  | .readEnd2 => 6 + dlen
  | .complete => 7 + dlen

/-- The states before ReadPayload. -/
def beforePayload (d : DState) : Bool :=
  match d with
  | .seekStart1 | .seekStart2 | .readLengthHi | .readLengthLo => true
  | .readPayload | .readChecksum | .readEnd1 | .readEnd2 | .complete => false

/-- R24. -/
abbrev DlenInv (d : Decoder) : Prop := d.dlen.toNat = dlenByState d.dstate d.cap

/-- R25. -/
abbrev DcntInv (d : Decoder) : Prop :=
  (beforePayload d.dstate = true → d.dcnt = 0) ∧
  (d.dstate = .readPayload → d.dcnt.toNat < d.dlen.toNat) ∧
  (d.dstate = .readChecksum ∨ d.dstate = .readEnd1 ∨ d.dstate = .readEnd2 ∨ d.dstate = .complete → d.dcnt = d.dlen)

/-- R26. -/
abbrev DcsInv (d : Decoder) : Prop :=
  d.dcs = cks (slice d.cap 4 (4 + d.dcnt.toNat)) ∧ (beforePayload d.dstate = true → d.dcs = 0)

/-- R27. -/
abbrev CapLengthInv (d : Decoder) : Prop := d.cap.length = capLengthByState d.dstate d.dlen.toNat d.dcnt.toNat

/-- R31: the bytes of the candidate that are already fixed. -/
abbrev CapPrefixInv (d : Decoder) : Prop :=
  (1 ≤ d.cap.length → slice d.cap 0 1 = [start1]) ∧
  (2 ≤ d.cap.length → slice d.cap 1 2 = [start2]) ∧
  (d.dstate = .readEnd1 ∨ d.dstate = .readEnd2 ∨ d.dstate = .complete →
    slice d.cap (4 + d.dlen.toNat) (5 + d.dlen.toNat) = [d.dcs]) ∧
  (d.dstate = .readEnd2 ∨ d.dstate = .complete → slice d.cap (5 + d.dlen.toNat) (6 + d.dlen.toNat) = [end1]) ∧
  (d.dstate = .complete → slice d.cap (6 + d.dlen.toNat) (7 + d.dlen.toNat) = [end2])

/-- The decoder invariant of R31: R24 to R27 together, and the fixed bytes of the candidate. -/
abbrev CandidateInv (d : Decoder) : Prop := DlenInv d ∧ DcntInv d ∧ DcsInv d ∧ CapLengthInv d ∧ CapPrefixInv d

/-- R32: at a command boundary `REPLAY = []` or `DSTATE = Complete`. -/
abbrev ReplayInv (d : Decoder) : Prop := d.replay = [] ∨ d.dstate = .complete

/-- R28: `REPLAY` holds at most 65541 bytes, and `|CAP| + |REPLAY|` is at most 65542. -/
abbrev CapacityInv (d : Decoder) : Prop :=
  d.replay.length ≤ replayCapacity ∧ d.cap.length + d.replay.length ≤ capCapacity

/-- What holds of the decoder at every command boundary (R28, R31, R32). -/
abbrev DecoderInv (d : Decoder) : Prop := CandidateInv d ∧ ReplayInv d ∧ CapacityInv d

/-- What holds of the machine between steps. -/
abbrev State.Inv (s : State) : Prop := DecoderInv s.dec

/-! ### Responding -/

/-- Executing `i` in `s` answers the next state `t`; the HOST gets exactly one more response, `r`; the channel and the HOST's
remaining moves are as before. -/
def Responds (i : Instr) (s t : State) (r : Bytes) : Prop :=
  exec i s = .next t ∧ t.responses = s.responses ++ [r] ∧ t.chan = s.chan ∧ t.host = s.host

/-- The block's elements (R20) are the same in both states. -/
def SameBlock (s t : State) : Prop := t.cksAcc = s.cksAcc ∧ t.dec = s.dec

/-- The block's elements are at their reset values (R36). -/
def AtReset (s : State) : Prop :=
  s.cksAcc = 0x00#8 ∧ s.dec.dstate = .seekStart1 ∧ s.dec.dlen = 0x0000#16 ∧ s.dec.dcnt = 0x0000#16 ∧ s.dec.dcs = 0x00#8 ∧
  s.dec.cap = [] ∧ s.dec.replay = [] ∧ s.dec.invCnt = 0x00000000#32 ∧ s.dec.frmCnt = 0x00000000#32

/-- What one DEC_PUSH of `data` does to a decoder: the decoder after it, `inv` and `k` (R172). -/
def pushDecoder (d : Decoder) (data : Bytes) : Decoder := (scanBytes (startScan d) data).1.dec

/-- `inv` of that DEC_PUSH. -/
def pushInv (d : Decoder) (data : Bytes) : Nat := (scanBytes (startScan d) data).1.ninv

/-- `k` of that DEC_PUSH. -/
def pushAccepted (d : Decoder) (data : Bytes) : Nat := (scanBytes (startScan d) data).2

/-- The response of that DEC_PUSH: `k`, `inv` and `DONE` (R89, R172). -/
def pushResponse (d : Decoder) (data : Bytes) : Bytes :=
  0x00#8 :: (beBytes 2 (pushAccepted d data) ++ beBytes 4 (pushInv d data) ++
    [if (pushDecoder d data).dstate = .complete then 0x01#8 else 0x00#8])

/-- Every one of these pushes, made in order, accepts all its data (R176). -/
def AllAccepted : Decoder → List Bytes → Prop
  | _, [] => True
  | d, data :: rest => pushAccepted d data = data.length ∧ AllAccepted (pushDecoder d data) rest

/-- The decoder after these pushes, made in order. -/
def pushesDecoder : Decoder → List Bytes → Decoder
  | d, [] => d
  | d, data :: rest => pushesDecoder (pushDecoder d data) rest

/-- The total `inv` of these pushes, made in order. -/
def pushesInv : Decoder → List Bytes → Nat
  | _, [] => 0
  | d, data :: rest => pushInv d data + pushesInv (pushDecoder d data) rest

/-- The responses of these pushes, made in order. -/
def pushesResponses : Decoder → List Bytes → List Bytes
  | _, [] => []
  | d, data :: rest => pushResponse d data :: pushesResponses (pushDecoder d data) rest

/-- The data of the DEC_PUSH commands among these commands, in order. -/
def pushedData : List Instr → List Bytes
  | [] => []
  | .decPush data :: rest => data :: pushedData rest
  | _ :: rest => pushedData rest

/-- The responses to the DEC_PUSH commands among these commands, given the responses to all of them. -/
def responsesToPushes : List Instr → List Bytes → List Bytes
  | .decPush _ :: rest, r :: rs => r :: responsesToPushes rest rs
  | _ :: rest, _ :: rs => responsesToPushes rest rs
  | _, _ => []

/-! ### Counting scanning steps (R177) -/

/-- The scanning steps `drainFuel` makes. -/
def drainFuelSteps : Nat → Scan → Nat
  | 0, _ => 0
  | fuel + 1, c =>
    match c.dec.replay with
    | [] => 0
    | b :: rest =>
      if c.dec.dstate = .complete then 0
      else drainFuelSteps fuel (dstep (setReplay c rest) b) + 1

/-- The scanning steps of a `drain()`. -/
def drainSteps (c : Scan) : Nat := drainFuelSteps (drainBound c.dec) c

/-- The scanning steps of the loop of DEC_PUSH, its drains included. -/
def pushSteps : Scan → Bytes → Nat
  | _, [] => 0
  | c, b :: rest =>
    if c.dec.dstate = .complete then 0
    else 1 + drainSteps (dstep c b) + pushSteps (drain (dstep c b)) rest

/-! ### Which commands touch what -/

/-- The commands that read or write `CKS_ACC` (R22, R240). -/
def usesCksAcc : Instr → Bool
  | .rst | .cksClr | .cksFeed _ | .cksRead => true
  | .encFrame _ _ | .decPush _ | .decTake | .decStatus | .decFlush | .gtcDecode _ | .gtcEpoch _ | .gtcConvert _
  | .illegal _ => false

/-- The commands that can write the decoder's elements (R172, R173, R175, R240). -/
def writesDecoder : Instr → Bool
  | .rst | .decPush _ | .decTake | .decFlush => true
  | .cksClr | .cksFeed _ | .cksRead | .encFrame _ _ | .decStatus | .gtcDecode _ | .gtcEpoch _ | .gtcConvert _
  | .illegal _ => false

/-- The commands that can write `CKS_ACC` (R122, R123, R240). -/
def writesCksAcc : Instr → Bool
  | .rst | .cksClr | .cksFeed _ => true
  | .cksRead | .encFrame _ _ | .decPush _ | .decTake | .decStatus | .decFlush | .gtcDecode _ | .gtcEpoch _
  | .gtcConvert _ | .illegal _ => false

/-- The total length of an OK response (R89), with `L` the held frame's declared length. -/
def okResponseLength (i : Instr) (declared : Nat) : Nat :=
  match i with
  | .rst | .cksClr | .decFlush => 1
  | .cksFeed _ | .cksRead => 2
  | .encFrame _ body => body.length + 9
  | .decPush _ => 8
  | .decTake => declared + 9
  | .decStatus => 21
  | .gtcDecode _ | .gtcEpoch _ => 14
  | .gtcConvert _ => 27
  | .illegal _ => 0

end Sys2Proof.Machine
end

