-- ==== Sys2Proof/Certificates/Slice0/Obligations.lean ====
section
/-! DEFINITION. The statements about the block for the provers. Each docstring names the rules it formalises. A statement about a
command says what it responds, what it writes, and by `SameBlock` or field by field what it leaves unchanged; `Responds` says that the
channel and the HOST's remaining moves are unchanged and that exactly one response is added. The block has no memory (R50). -/

open Sys2Proof Sys2Proof.Machine

/-! ### Encoding -/

/-- R88, R92, R94, R95: decoding the encoding of any well-formed command gives the command back, with every operand at every value the
encoding admits, and leaves the bytes after it. -/
def Obligations.DecodeOfEncodeIsTheCommand : Prop :=
  ∀ (i : Instr) (rest : Bytes), i.WellFormed = true → decode (encode i ++ rest) = .command i rest

/-- R88, R92 to R94: whatever decodes to a command is that command's encoding and the bytes after it, and the command is well formed. -/
def Obligations.DecodedBytesAreTheEncoding : Prop :=
  ∀ (bs rest : Bytes) (i : Instr), decode bs = .command i rest → i.WellFormed = true ∧ bs = encode i ++ rest

/-- R87: the twelve opcode values. -/
def Obligations.OpcodeMapHasTheseTwelveValues : Prop :=
  opcodeMap.map opcodeByte =
    [0x01#8, 0x10#8, 0x11#8, 0x12#8, 0x20#8, 0x30#8, 0x31#8, 0x32#8, 0x33#8, 0x40#8, 0x41#8, 0x42#8] ∧
  opcodeMap = [.rst, .cksClr, .cksFeed, .cksRead, .encFrame, .decPush, .decTake, .decStatus, .decFlush, .gtcDecode, .gtcEpoch,
    .gtcConvert] ∧
  (∀ b, opcodeOf b = none ↔ b ∉ opcodeMap.map opcodeByte) ∧
  (∀ o, opcodeOf (opcodeByte o) = some o)

/-- R92: the 244 illegal opcode values, each a command of length 1 whose response is `[0x01]` and which changes no state element; the next
byte on the channel is the next opcode. -/
def Obligations.IllegalOpcodesRespondIllegal : Prop :=
  (∀ op : Byte, opcodeOf op = none ↔
    op.toNat = 0x00 ∨ (0x02 ≤ op.toNat ∧ op.toNat ≤ 0x0F) ∨ (0x13 ≤ op.toNat ∧ op.toNat ≤ 0x1F) ∨
    (0x21 ≤ op.toNat ∧ op.toNat ≤ 0x2F) ∨ (0x34 ≤ op.toNat ∧ op.toNat ≤ 0x3F) ∨ 0x43 ≤ op.toNat) ∧
  ((List.range 256).filter (fun n => opcodeOf (BitVec.ofNat 8 n) = none)).length = 244 ∧
  ∀ (op : Byte) (rest : Bytes) (s : State), opcodeOf op = none →
    decode (op :: rest) = .command (.illegal op) rest ∧
    ∃ t, Responds (.illegal op) s t [0x01#8] ∧ SameBlock s t

/-- R88: the operand layouts of all twelve commands and the layout of the time record. -/
def Obligations.CommandLayoutsAreTheTable : Prop :=
  ∀ (data : Bytes) (id : Byte) (t : GpsTime),
    encode .rst = [0x01#8] ∧ encode .cksClr = [0x10#8] ∧ encode .cksRead = [0x12#8] ∧ encode .decTake = [0x31#8] ∧
    encode .decStatus = [0x32#8] ∧ encode .decFlush = [0x33#8] ∧
    (data.length ≤ 65535 → ∃ hi lo : Byte, data.length = hi.toNat * 256 + lo.toNat ∧
      encode (.cksFeed data) = [0x11#8, hi, lo] ++ data ∧ encode (.encFrame id data) = [0x20#8, id, hi, lo] ++ data ∧
      encode (.decPush data) = [0x30#8, hi, lo] ++ data ∧ encode (.gtcDecode data) = [0x40#8, hi, lo] ++ data ∧
      encode (.gtcConvert data) = [0x42#8, hi, lo] ++ data) ∧
    ∃ tow stow wn : Bytes, tow.length = 4 ∧ stow.length = 4 ∧ wn.length = 2 ∧ be tow = t.tow.toNat ∧ be stow = t.stow.toNat ∧
      be wn = t.wn.toNat ∧ encode (.gtcEpoch t) = [0x41#8] ++ tow ++ stow ++ wn ++ [t.defleap, t.curleap, t.valid]

/-- A few words of the spec's test vectors decode to the commands they stand for (V-S1, V-C2, V-D1, V-G5, V-X2). -/
def Obligations.SpecVectorWordsDecode : Prop :=
  decode [0x20#8, 0x64#8, 0x00#8, 0x01#8, 0x20#8] = .command (.encFrame 0x64#8 [0x20#8]) [] ∧
  decode [0x11#8, 0x00#8, 0x02#8, 0x64#8, 0x20#8] = .command (.cksFeed [0x64#8, 0x20#8]) [] ∧
  decode [0x32#8, 0x31#8] = .command .decStatus [0x31#8] ∧
  decode [0x41#8, 0x00#8, 0x12#8, 0xD6#8, 0x87#8, 0x00#8, 0x00#8, 0x03#8, 0xE7#8, 0x00#8, 0x00#8, 0xFF#8, 0x05#8, 0x01#8] =
    .command (.gtcEpoch { tow := 1234567, stow := 999, wn := 0, defleap := 0xFF#8, curleap := 5, valid := 1 }) [] ∧
  decode [0x13#8, 0x11#8] = .command (.illegal 0x13#8) [0x11#8]

/-! ### The step -/

/-- R6, R58, R85: when the bytes on the channel begin with a whole command, the step executes it, the channel holding the bytes after it;
there is no delay slot and no program counter around it (R21, R291). That the channel and the HOST stand in State is the model's choice (log
entries 1 and 2). -/
def Obligations.StepExecutesTheDecodedCommand : Prop :=
  ∀ (s : State) (i : Instr) (rest : Bytes), decode s.chan = .command i rest → step s = exec i { s with chan := rest }

/-- R96: a command delivered in part has no effect. No block element and no response changes while it waits; with no HOST move left the
state stays as it is, and when the HOST delivers the rest the command executes as if delivered at once. A wait as a next state that changes
nothing, and the HOST's moves, are the model's (log entries 1 to 3). -/
def Obligations.PartOfACommandHasNoEffect : Prop :=
  ∀ (s : State) (i : Instr) (p q : Bytes), i.WellFormed = true → encode i = p ++ q → q ≠ [] → s.chan = p →
    (s.host = [] → step s = .next s) ∧
    (∀ bs later, s.host = .send bs :: later → step s = .next { s with chan := p ++ bs, host := later }) ∧
    (∀ later, s.host = .send q :: later → Host.Core.run core 2 s = exec i { s with chan := [], host := later })

/-- R256, R264: nothing stops the machine; every step answers a next state, and a step that executes no command adds no response. That a wait is a next
state (log entry 3), that a power-on reset by the HOST adds no response (log entry 5) and that nothing stops the machine (log entry 15) are the
model's. -/
def Obligations.EveryStepAnswersNext : Prop :=
  ∀ s : State, ∃ t, step s = .next t ∧
    ((∃ why, decode s.chan = .waiting why) → t.responses = s.responses) ∧
    (∀ i rest, decode s.chan = .command i rest → ∃ r, t.responses = s.responses ++ [r])

/-- The word of an opcode-table row placed by `withFetchWord` is what the very next step executes (R85, R94; the placing is the model's, log
entry 4). -/
def Obligations.PlacedWordIsExecutedNext : Prop :=
  ∀ (s : State) (nbits w : Nat) (i : Instr), decodeTableWord nbits w = some i → step (s.withFetchWord nbits w) = exec i s

/-- R58, R293: a run is a list of commands. Delivered one after the other, they execute in issue order and the state after them is their
effects composed. The HOST's list stands in State by log entry 1, and a delivery is a step of its own by log entry 2. -/
def Obligations.RunIsTheCommandsInOrder : Prop :=
  ∀ (cmds : List Instr) (s : State), (∀ i ∈ cmds, i.WellFormed = true) →
    Host.Core.run core (2 * cmds.length) { s with chan := [], host := cmds.map (fun i => .send (encode i)) } =
      execAll cmds { s with chan := [], host := [] }

/-! ### Responses and errors -/

/-- R86, R90: every command gets exactly one response: status OK and fields, or one byte that is an error status 1 to 4. -/
def Obligations.EveryCommandGetsOneResponse : Prop :=
  ∀ (i : Instr) (s : State), ∃ t r, Responds i s t r ∧
    ((∃ fields, r = 0x00#8 :: fields) ∨ r = [0x01#8] ∨ r = [0x02#8] ∨ r = [0x03#8] ∨ r = [0x04#8])

/-- R252: a command whose response carries an error status writes no state element, and the response is that one byte. -/
def Obligations.ErrorsHaveNoEffect : Prop :=
  ∀ (i : Instr) (s t : State) (r : Bytes), Responds i s t r → r.head? ≠ some 0x00#8 → SameBlock s t ∧ r.length = 1

/-- R251: which commands raise which error status, and when. -/
def Obligations.ErrorStatusesAndTheirCauses : Prop :=
  ∀ (i : Instr) (s t : State) (r : Bytes), i.WellFormed = true → Responds i s t r →
    (r = [0x01#8] ↔ ∃ op, i = .illegal op) ∧
    (r = [0x02#8] ↔ ∃ id body, i = .encFrame id body ∧ body.length = 65535) ∧
    (r = [0x03#8] ↔ ∃ p, (i = .gtcDecode p ∨ i = .gtcConvert p) ∧ p.length < 29) ∧
    (r = [0x04#8] ↔ i = .decTake ∧ s.dec.dstate ≠ .complete) ∧
    (r.length = 1 ∧ r ≠ [0x00#8] → r = [0x01#8] ∨ r = [0x02#8] ∨ r = [0x03#8] ∨ r = [0x04#8])

/-- R89: the length of every OK response, in every state that meets the decoder invariant. -/
def Obligations.OkResponsesHaveTheTableLengths : Prop :=
  ∀ (i : Instr) (s t : State) (r : Bytes), s.Inv → Responds i s t r → r.head? = some 0x00#8 →
    r.length = okResponseLength i s.dec.dlen.toNat

/-! ### Reset -/

/-- R36: the value of every state element after power-on reset and after RST. -/
def Obligations.ResetValuesOfEveryElement : Prop :=
  AtReset State.reset ∧ (∀ s, AtReset (powerOnReset s)) ∧ (∀ s, ∃ t, exec .rst s = .next t ∧ AtReset t)

/-- R280: asserting the reset input puts every element at its reset value; no command is in progress and a partly delivered command is
discarded. When the HOST asserts it, and that it adds no response, is the model's choice (log entries 2 and 5). -/
def Obligations.PowerOnResetDiscardsAPartialCommand : Prop :=
  AtReset State.reset ∧ State.reset.chan = [] ∧
  ∀ (s : State) (why : Missing) (later : List HostMove), decode s.chan = .waiting why → s.host = .assertReset :: later →
    ∃ t, step s = .next t ∧ AtReset t ∧ t.chan = [] ∧ t.host = later ∧ t.responses = s.responses

/-- R240, R281: RST responds `[0x00]`, leaves the block as power-on reset does, changes nothing on a block at reset, and a following
DEC_STATUS responds 21 zero bytes. That power-on reset keeps the record of responses is the model's (log entry 5). R240's words on a second
RST are followed where R56 says otherwise (log entry 18). -/
def Obligations.RstResetsTheWholeBlock : Prop :=
  encode .rst = [0x01#8] ∧
  ∀ s : State, (powerOnReset s).responses = s.responses ∧
    ∃ t, Responds .rst s t [0x00#8] ∧ AtReset t ∧ SameBlock (powerOnReset s) t ∧ (AtReset s → SameBlock s t) ∧
      ∃ u, Responds .decStatus t u (List.replicate 21 0x00#8)

/-! ### Checksum unit -/

/-- R121: the laws of `cks`. -/
def Obligations.ChecksumLaws : Prop :=
  cks [] = 0x00#8 ∧
  (∀ a b : Bytes, cks (a ++ b) = cks a ^^^ cks b) ∧
  (∀ a b : Bytes, a.Perm b → cks a = cks b) ∧
  (∀ a : Bytes, cks (a ++ [cks a]) = 0x00#8) ∧
  (∀ (a : Bytes) (i j : Nat), i < a.length → j < 8 →
    cks (a.modify i (· ^^^ (1#8 <<< j))) = cks a ^^^ (1#8 <<< j) ∧
    cks (a.modify i (· ^^^ (1#8 <<< j))) ≠ cks a ∧ cks a ^^^ (1#8 <<< j) ≠ cks a) ∧
  (∀ (a : Bytes) (i k j : Nat), i < a.length → k < a.length → i ≠ k →
    cks ((a.modify i (· ^^^ (1#8 <<< j))).modify k (· ^^^ (1#8 <<< j))) = cks a)

/-- R122: CKS_CLR clears the accumulator, is idempotent and raises no error. -/
def Obligations.CksClrClearsTheAccumulator : Prop :=
  encode .cksClr = [0x10#8] ∧
  ∀ s : State, ∃ t, Responds .cksClr s t [0x00#8] ∧ t.cksAcc = 0x00#8 ∧ t.dec = s.dec ∧
    ∃ u, Responds .cksClr t u [0x00#8] ∧ SameBlock t u

/-- R123: CKS_FEED XORs the checksum of its data into the accumulator and returns it, for every `n`; no data leaves it unchanged, the same
data twice restores it, and two feeds are one feed of the joined data. -/
def Obligations.CksFeedXorsTheData : Prop :=
  ∀ (data : Bytes) (s : State),
    encode (.cksFeed data) = 0x11#8 :: (beBytes 2 data.length ++ data) ∧
    ∃ t, Responds (.cksFeed data) s t [0x00#8, s.cksAcc ^^^ cks data] ∧ t.cksAcc = s.cksAcc ^^^ cks data ∧ t.dec = s.dec ∧
      (data = [] → t.cksAcc = s.cksAcc) ∧
      (∃ u, exec (.cksFeed data) t = .next u ∧ u.cksAcc = s.cksAcc) ∧
      ∀ more, ∃ u v, exec (.cksFeed more) t = .next u ∧ exec (.cksFeed (data ++ more)) s = .next v ∧ u.cksAcc = v.cksAcc

/-- R124: CKS_READ returns the accumulator and changes no state element; right after reset it responds `[0x00, 0x00]`. -/
def Obligations.CksReadReturnsTheAccumulator : Prop :=
  encode .cksRead = [0x12#8] ∧
  (∀ s : State, ∃ t, Responds .cksRead s t [0x00#8, s.cksAcc] ∧ SameBlock s t) ∧
  ∃ t, Responds .cksRead State.reset t [0x00#8, 0x00#8]

/-- R101: CKS_CALC expands to CKS_CLR and CKS_FEED, and the `acc` of the second response is `cks(bytes)`. -/
def Obligations.CksCalcIsTheChecksumFunction : Prop :=
  ∀ (p : RebootParams) (data : Bytes) (s : State), expand p (.cksCalc data) = [.cksClr, .cksFeed data] ∧
    ∃ t, execAll (expand p (.cksCalc data)) s = .next t ∧ t.responses = s.responses ++ [[0x00#8], [0x00#8, cks data]]

/-- R22: no command of another unit writes or reads the accumulator: with another value in it, such a command does the same. -/
def Obligations.OtherUnitsNeitherReadNorWriteCksAcc : Prop :=
  ∀ (i : Instr) (s : State) (v : Byte), usesCksAcc i = false →
    ∃ t, exec i s = .next t ∧ t.cksAcc = s.cksAcc ∧ exec i (s.setCksAcc v) = .next (t.setCksAcc v)

/-! ### Frame encoder -/

/-- R140, R141: ENC_FRAME responds the frame of its id and body when the body has at most 65534 bytes, BAD_LEN when it has 65535, and
changes no state element. -/
def Obligations.EncFrameBuildsTheFrame : Prop :=
  ∀ (id : Byte) (body : Bytes) (s : State),
    encode (.encFrame id body) = [0x20#8, id] ++ beBytes 2 body.length ++ body ∧
    (body.length ≤ 65534 →
      ∃ (t : State) (frame : Bytes), Responds (.encFrame id body) s t (0x00#8 :: frame) ∧ SameBlock s t ∧
        frame = [0xA0#8, 0xA1#8] ++ beBytes 2 (1 + body.length) ++ (id :: body) ++ [cks (id :: body), 0x0D#8, 0x0A#8] ∧
        frame.length = body.length + 8 ∧ be (slice frame 2 4) = 1 + body.length) ∧
    (body.length = 65535 → ∃ t, Responds (.encFrame id body) s t [0x02#8] ∧ SameBlock s t)

/-- R142: the response of ENC_FRAME depends on its operands only, whatever the two states, and the decoder is not touched. -/
def Obligations.EncFrameIsDeterministic : Prop :=
  ∀ (id : Byte) (body : Bytes) (s s' : State), ∃ r t t',
    Responds (.encFrame id body) s t r ∧ Responds (.encFrame id body) s' t' r ∧ t.dec = s.dec ∧ t'.dec = s'.dec

/-- R77, R100: TIMEQ's response is `[0x00]` followed by the 9-byte time query. -/
def Obligations.TimeQueryFrame : Prop :=
  ∀ (p : RebootParams) (s : State), expand p .timeq = [.encFrame 0x64#8 [0x20#8]] ∧
    ∃ t, execAll (expand p .timeq) s = .next t ∧ SameBlock s t ∧
      t.responses = s.responses ++ [[0x00#8, 0xA0#8, 0xA1#8, 0x00#8, 0x02#8, 0x64#8, 0x20#8, 0x44#8, 0x0D#8, 0x0A#8]]

/-- R80, R103: the Ack and Nack frames of any command id, and those of the reboot command. -/
def Obligations.AckAndNackFrames : Prop :=
  ∀ (p : RebootParams) (id : Byte) (s : State),
    expand p (.ack id) = [.encFrame 0x83#8 [id]] ∧ expand p (.nack id) = [.encFrame 0x84#8 [id]] ∧
    (∃ t, execAll (expand p (.ack id)) s = .next t ∧ SameBlock s t ∧ t.responses = s.responses ++
      [[0x00#8, 0xA0#8, 0xA1#8, 0x00#8, 0x02#8, 0x83#8, id, 0x83#8 ^^^ id, 0x0D#8, 0x0A#8]]) ∧
    (∃ t, execAll (expand p (.nack id)) s = .next t ∧ SameBlock s t ∧ t.responses = s.responses ++
      [[0x00#8, 0xA0#8, 0xA1#8, 0x00#8, 0x02#8, 0x84#8, id, 0x84#8 ^^^ id, 0x0D#8, 0x0A#8]]) ∧
    0x83#8 ^^^ 0x01#8 = 0x82#8 ∧ 0x84#8 ^^^ 0x01#8 = 0x85#8

/-- R79, R102: REBOOT's frame has 22 bytes, for every value of the OPEN parameters. -/
def Obligations.RebootFrame : Prop :=
  ∀ (p : RebootParams) (mode : RebootMode) (year : BitVec 16) (month day hour minute second : Byte) (s : State),
    ∃ (t : State) (payload : Bytes),
      payload = [0x01#8, (match mode with | .hot => p.modeHot | .warm => p.modeWarm | .cold => p.modeCold),
        year.extractLsb' 8 8, year.extractLsb' 0 8, month, day, hour, minute, second] ++ p.tail.toList ∧
      payload.length = 15 ∧
      expand p (.reboot mode year month day hour minute second) = [.encFrame 0x01#8 payload.tail] ∧
      execAll (expand p (.reboot mode year month day hour minute second)) s = .next t ∧ SameBlock s t ∧
      t.responses = s.responses ++
        [0x00#8 :: ([0xA0#8, 0xA1#8, 0x00#8, 0x0F#8] ++ payload ++ [cks payload, 0x0D#8, 0x0A#8])]

/-- R143: the frame of ENC_FRAME, pushed in any number of chunks from SeekStart1 with an empty queue, is accepted whole with no Invalid
event, and DEC_TAKE then returns the id and body. -/
def Obligations.EncodeThenDecodeRoundTrip : Prop :=
  ∀ (id : Byte) (body frame : Bytes) (s e : State) (chunks : List Bytes), body.length ≤ 65534 →
    Responds (.encFrame id body) s e (0x00#8 :: frame) →
    s.dec.dstate = .seekStart1 → s.dec.replay = [] → chunks.flatten = frame → (∀ c ∈ chunks, c.length ≤ 65535) →
    ∃ (t u : State) (flags : List Byte) (before : List Byte), execAll (chunks.map .decPush) s = .next t ∧
      flags.length = chunks.length ∧ flags = before ++ [0x01#8] ∧
      t.responses = s.responses ++
        List.zipWith (fun c f => 0x00#8 :: (beBytes 2 c.length ++ [0x00#8, 0x00#8, 0x00#8, 0x00#8, f])) chunks flags ∧
      Responds .decTake t u
        (0x00#8 :: (beBytes 2 (1 + body.length) ++ (id :: body) ++ [cks (id :: body), 0x00#8, 0x00#8, 0x00#8, 0x00#8, 0x00#8]))

/-! ### Frame decoder: one scanning step -/

/-- R161, R162: SeekStart1 and SeekStart2. A START2 mismatch is no Invalid event, and its outcome is that of scanning the mismatching byte
again in SeekStart1. -/
def Obligations.SeekingTheStartMarker : Prop :=
  ∀ (c : Scan) (b : Byte),
    (c.dec.dstate = .seekStart1 →
      (b = 0xA0#8 → dstep c b = { c with dec := { c.dec with cap := [0xA0#8], dstate := .seekStart2 } }) ∧
      (b ≠ 0xA0#8 → dstep c b = c)) ∧
    (c.dec.dstate = .seekStart2 →
      (b = 0xA1#8 → dstep c b = { c with dec := { c.dec with cap := c.dec.cap ++ [0xA1#8], dstate := .readLengthHi } }) ∧
      (b = 0xA0#8 → dstep c b = { c with dec := { c.dec with cap := [0xA0#8], dstate := .seekStart2 } }) ∧
      (b ≠ 0xA1#8 → b ≠ 0xA0#8 →
        dstep c b = { c with dec := { c.dec with dstate := .seekStart1, cap := [], dlen := 0, dcnt := 0, dcs := 0 } }) ∧
      (b ≠ 0xA1#8 → CandidateInv c.dec →
        dstep c b = dstep { c with dec := { c.dec with dstate := .seekStart1, cap := [], dlen := 0, dcnt := 0, dcs := 0 } } b))

/-- R163, R164: the two length bytes, in any state that meets the decoder invariant. -/
def Obligations.ReadingTheDeclaredLength : Prop :=
  ∀ (c : Scan) (b : Byte),
    (c.dec.dstate = .readLengthHi → ∃ dlen : BitVec 16, dlen.toNat = b.toNat * 256 ∧
      dstep c b = { c with dec := { c.dec with cap := c.dec.cap ++ [b], dlen := dlen, dstate := .readLengthLo } }) ∧
    (c.dec.dstate = .readLengthLo → CandidateInv c.dec → ∃ dlen : BitVec 16, dlen.toNat = c.dec.dlen.toNat + b.toNat ∧
      dstep c b = { c with dec :=
        { c.dec with
          cap := c.dec.cap ++ [b]
          dlen := dlen
          dcnt := 0
          dcs := 0x00#8
          dstate := if dlen = 0 then .readChecksum else .readPayload } })

/-- R165: any byte is a payload byte, and exactly `DLEN` bytes are read. -/
def Obligations.ReadingThePayload : Prop :=
  ∀ (c : Scan) (b : Byte), c.dec.dstate = .readPayload → CandidateInv c.dec →
    ∃ dcnt : BitVec 16, dcnt.toNat = c.dec.dcnt.toNat + 1 ∧ dcnt.toNat ≤ c.dec.dlen.toNat ∧
      dstep c b = { c with dec :=
        { c.dec with
          cap := c.dec.cap ++ [b]
          dcs := c.dec.dcs ^^^ b
          dcnt := dcnt
          dstate := if dcnt = c.dec.dlen then .readChecksum else .readPayload } }

/-- R166, R167, R168, R169: the checksum byte and the end marker, the Invalid event and the completion. After an Invalid event the queued
bytes are scanned again from SeekStart1. -/
def Obligations.CheckingTheTrailer : Prop :=
  ∀ (c : Scan) (b : Byte) (bad good : Scan),
    bad = { dec :=
              { dstate := .seekStart1, dlen := 0, dcnt := 0, dcs := 0, cap := []
                replay := (c.dec.cap ++ [b]).tail ++ c.dec.replay
                invCnt := c.dec.invCnt + 1
                frmCnt := c.dec.frmCnt }
            ninv := c.ninv + 1 } →
    good = { c with dec := { c.dec with cap := c.dec.cap ++ [b], dstate := .complete, frmCnt := c.dec.frmCnt + 1 } } →
    (c.dec.dstate = .readChecksum →
      dstep c b =
        if b = c.dec.dcs then { c with dec := { c.dec with cap := c.dec.cap ++ [b], dstate := .readEnd1 } } else bad) ∧
    (c.dec.dstate = .readEnd1 →
      dstep c b = if b = 0x0D#8 then { c with dec := { c.dec with cap := c.dec.cap ++ [b], dstate := .readEnd2 } } else bad) ∧
    (c.dec.dstate = .readEnd2 → dstep c b = if b = 0x0A#8 then good else bad) ∧
    (∀ x rest, bad.dec.replay = x :: rest → drain bad = drain (dstep { bad with dec := { bad.dec with replay := rest } } x))

/-! ### Frame decoder: draining and the commands -/

/-- R171: `drain()` scans REPLAY bytes from the head while there is one and no frame is complete, and ends with the queue empty or a
frame complete. -/
def Obligations.DrainIsTheWhileLoop : Prop :=
  ∀ c₀ : Scan, ∃ (m : Nat) (c : Nat → Scan), c 0 = c₀ ∧
    (∀ j, j < m → (c j).dec.dstate ≠ .complete ∧
      ∃ b rest, (c j).dec.replay = b :: rest ∧
        c (j + 1) = dstep { c j with dec := { (c j).dec with replay := rest } } b) ∧
    ((c m).dec.replay = [] ∨ (c m).dec.dstate = .complete) ∧ drain c₀ = c m

/-- R177: scanning a REPLAY byte lowers the measure `(|CAP| + |REPLAY|, |REPLAY|)`, and one command makes at most `S * (S + 1)` scanning
steps. -/
def Obligations.ResynchronisationTerminates : Prop :=
  (∀ (c : Scan) (b : Byte) (rest : Bytes), c.dec.dstate ≠ .complete → c.dec.replay = b :: rest →
    ∀ d : Decoder, d = (dstep { c with dec := { c.dec with replay := rest } } b).dec →
      d.cap.length + d.replay.length < c.dec.cap.length + c.dec.replay.length ∨
      (d.cap.length + d.replay.length = c.dec.cap.length + c.dec.replay.length ∧ d.replay.length < c.dec.replay.length)) ∧
  (∀ (d : Decoder) (data : Bytes) (size : Nat), size = d.cap.length + d.replay.length + data.length →
    pushSteps (startScan d) data ≤ size * (size + 1)) ∧
  (∀ (d : Decoder) (size : Nat), size = d.cap.length + d.replay.length →
    drainSteps (startScan (clearCandidate d)) ≤ size * (size + 1))

/-- R172: DEC_PUSH scans and drains byte after byte while the decoder is not Complete, and responds `k`, `inv` and `DONE`. Between two bytes
the queue is empty wherever R32 holds at the start. -/
def Obligations.DecPushScansUntilComplete : Prop :=
  ∀ (data : Bytes) (s : State),
    encode (.decPush data) = 0x30#8 :: (beBytes 2 data.length ++ data) ∧
    ∃ (k : Nat) (c : Nat → Scan) (t : State), c 0 = { dec := s.dec, ninv := 0 } ∧ k ≤ data.length ∧
      (∀ j, j < k → (c j).dec.dstate ≠ .complete ∧ (ReplayInv s.dec → (c j).dec.replay = []) ∧
        ∃ b, data[j]? = some b ∧ c (j + 1) = drain (dstep (c j) b)) ∧
      (k < data.length → (c k).dec.dstate = .complete) ∧
      Responds (.decPush data) s t
        (0x00#8 :: (beBytes 2 k ++ beBytes 4 (c k).ninv ++ [if (c k).dec.dstate = .complete then 0x01#8 else 0x00#8])) ∧
      t.dec = (c k).dec ∧ t.cksAcc = s.cksAcc

/-- R173: DEC_TAKE returns the held frame, releases the decoder and drains; it raises NO_FRAME and changes nothing when no frame is held. -/
def Obligations.DecTakeReturnsTheHeldFrame : Prop :=
  encode .decTake = [0x31#8] ∧
  ∀ s : State,
    (s.dec.dstate = .complete → ∃ (t : State) (c : Scan),
      c = drain { dec := { s.dec with dstate := .seekStart1, cap := [], dlen := 0, dcnt := 0, dcs := 0 }, ninv := 0 } ∧
      Responds .decTake s t
        (0x00#8 :: (beBytes 2 s.dec.dlen.toNat ++ slice s.dec.cap 4 (4 + s.dec.dlen.toNat) ++
          slice s.dec.cap (4 + s.dec.dlen.toNat) (5 + s.dec.dlen.toNat) ++ beBytes 4 c.ninv ++
          [if c.dec.dstate = .complete then 0x01#8 else 0x00#8])) ∧
      t.dec = c.dec ∧ t.cksAcc = s.cksAcc) ∧
    (s.dec.dstate ≠ .complete → ∃ t, Responds .decTake s t [0x04#8] ∧ SameBlock s t)

/-- R23, R174: DEC_STATUS reports the decoder's elements, with the state codes 0 to 8, and changes nothing. -/
def Obligations.DecStatusReportsTheDecoder : Prop :=
  encode .decStatus = [0x32#8] ∧
  [DState.seekStart1, .seekStart2, .readLengthHi, .readLengthLo, .readPayload, .readChecksum, .readEnd1, .readEnd2, .complete].map
    dstateCode = [0#8, 1#8, 2#8, 3#8, 4#8, 5#8, 6#8, 7#8, 8#8] ∧
  (∀ d : DState, (dstateCode d).toNat ≤ 8) ∧
  (∀ s : State, ∃ t, SameBlock s t ∧ Responds .decStatus s t
    ([0x00#8, dstateCode s.dec.dstate] ++ beBytes 2 s.dec.dlen.toNat ++ beBytes 2 s.dec.dcnt.toNat ++ [s.dec.dcs] ++
      beBytes 3 s.dec.cap.length ++ beBytes 3 s.dec.replay.length ++ beBytes 4 s.dec.invCnt.toNat ++
      beBytes 4 s.dec.frmCnt.toNat)) ∧
  (∀ s : State, s.Inv → s.dec.cap.length ≤ 65542 ∧ s.dec.replay.length ≤ 65541) ∧
  ∃ t, Responds .decStatus State.reset t (List.replicate 21 0x00#8)

/-- R175: DEC_FLUSH clears the candidate, a held frame and the queue, and keeps the counters. -/
def Obligations.DecFlushAbandonsProgress : Prop :=
  encode .decFlush = [0x33#8] ∧
  ∀ s : State, ∃ t, Responds .decFlush s t [0x00#8] ∧ t.cksAcc = s.cksAcc ∧
    t.dec = { dstate := .seekStart1, dlen := 0, dcnt := 0, dcs := 0, cap := [], replay := []
              invCnt := s.dec.invCnt, frmCnt := s.dec.frmCnt }

/-! ### Frame decoder: the laws -/

/-- R170, R285: while a frame is held a push accepts nothing and changes nothing, and no command but DEC_TAKE, DEC_FLUSH and RST writes the
decoder. -/
def Obligations.HeldFrameBlocksDecoding : Prop :=
  ∀ s : State, s.dec.dstate = .complete →
    (∀ data, ∃ t, Responds (.decPush data) s t [0x00#8, 0x00#8, 0x00#8, 0x00#8, 0x00#8, 0x00#8, 0x00#8, 0x01#8] ∧ SameBlock s t) ∧
    (∀ i, i ≠ .decTake → i ≠ .decFlush → i ≠ .rst → ∃ t, exec i s = .next t ∧ t.dec = s.dec) ∧
    drain (startScan s.dec) = startScan s.dec

/-- R176: pushing a stream in pieces, all but the last accepted whole, gives the state, the total `inv`, the `k` and the `DONE` of pushing
it at once, whatever commands that do not write the decoder stand between the pushes (RST, which resets the decoder, is one that does,
R240). -/
def Obligations.DecodingIsResumable : Prop :=
  ∀ (s : State) (cmds : List Instr) (ds : List Bytes) (last : Bytes),
    (∀ i ∈ cmds, (∃ data, i = .decPush data) ∨ writesDecoder i = false) → ds = pushedData cmds →
    (ds.flatten ++ last).length ≤ 65535 → AllAccepted s.dec ds →
    ∃ (t u : State) (d : Decoder) (rs : List Bytes), d = pushesDecoder s.dec ds ∧
      execAll (cmds ++ [.decPush last]) s = .next t ∧ exec (.decPush (ds.flatten ++ last)) s = .next u ∧
      t.dec = u.dec ∧ ((∀ i ∈ cmds, writesCksAcc i = false) → SameBlock u t) ∧
      rs.length = cmds.length ∧ t.responses = s.responses ++ rs ++ [pushResponse d last] ∧
      responsesToPushes cmds rs = pushesResponses s.dec ds ∧
      u.responses = s.responses ++ [pushResponse s.dec (ds.flatten ++ last)] ∧
      pushInv s.dec (ds.flatten ++ last) = pushesInv s.dec ds + pushInv d last ∧
      pushAccepted s.dec (ds.flatten ++ last) = ds.flatten.length + pushAccepted d last ∧
      (pushDecoder s.dec (ds.flatten ++ last)).dstate = (pushDecoder d last).dstate

/-- R178: with any single bit of the payload or the checksum byte of a valid frame flipped, no event occurs before the checksum byte, and the
candidate begun at offset 0 ends there with an Invalid event. A flipped marker bit can make the frame be skipped silently, and a flipped
length bit can leave the decoder waiting. -/
def Obligations.SingleBitErrorsAreInvalid : Prop :=
  (∀ (d : Decoder) (payload f : Bytes) (i j : Nat), payload.length ≤ 65535 → j < 8 → 4 ≤ i → i ≤ 4 + payload.length →
    d.dstate = .seekStart1 → d.replay = [] → f = (frameOf payload).modify i (· ^^^ (1#8 <<< j)) →
    pushAccepted d (f.take (4 + payload.length)) = 4 + payload.length ∧ pushInv d (f.take (4 + payload.length)) = 0 ∧
    (pushDecoder d (f.take (4 + payload.length))).dstate = .readChecksum ∧
    (pushDecoder d (f.take (4 + payload.length))).cap = f.take (4 + payload.length) ∧
    (pushDecoder d (f.take (4 + payload.length))).frmCnt = d.frmCnt ∧
    (∃ b, f[4 + payload.length]? = some b ∧
      (dstep (startScan (pushDecoder d (f.take (4 + payload.length)))) b).ninv = 1 ∧
      (dstep (startScan (pushDecoder d (f.take (4 + payload.length)))) b).dec.dstate = .seekStart1) ∧
    1 ≤ pushInv d (f.take (5 + payload.length)) ∧ 1 ≤ pushInv d f) ∧
  (∃ f, f = (frameOf [0x64#8, 0x20#8]).modify 0 (· ^^^ 0x01#8) ∧ pushInv Decoder.reset f = 0 ∧
    pushDecoder Decoder.reset f = Decoder.reset) ∧
  (∃ f, f = (frameOf [0x64#8, 0x20#8]).modify 2 (· ^^^ 0x80#8) ∧ pushInv Decoder.reset f = 0 ∧
    (pushDecoder Decoder.reset f).dstate = .readPayload)

/-- R179: a corrupted frame that meets conditions (i) to (iv), then a valid one: one Invalid event, one completed frame, and DEC_TAKE
returns the valid frame's payload. Without condition (iv) another frame can be held instead. -/
def Obligations.ResynchronisationOutcome : Prop :=
  (∀ (s : State) (c payload : Bytes) (len : Nat), payload.length ≤ 65535 → (c ++ frameOf payload).length ≤ 65535 →
    s.dec.dstate = .seekStart1 → s.dec.replay = [] →
    slice c 0 2 = [0xA0#8, 0xA1#8] → len = be (slice c 2 4) → c.length = len + 7 →
    (slice c (4 + len) (7 + len) ≠ [cks (slice c 4 (4 + len)), 0x0D#8, 0x0A#8]) → 0xA0#8 ∉ c.tail →
    ∃ t u, Responds (.decPush (c ++ frameOf payload)) s t
        (0x00#8 :: (beBytes 2 (c ++ frameOf payload).length ++ [0x00#8, 0x00#8, 0x00#8, 0x01#8, 0x01#8])) ∧
      t.dec.invCnt = s.dec.invCnt + 1 ∧ t.dec.frmCnt = s.dec.frmCnt + 1 ∧
      Responds .decTake t u
        (0x00#8 :: (beBytes 2 payload.length ++ payload ++ [cks payload, 0x00#8, 0x00#8, 0x00#8, 0x00#8, 0x00#8]))) ∧
  ∃ (c payload : Bytes) (len : Nat), slice c 0 2 = [0xA0#8, 0xA1#8] ∧ len = be (slice c 2 4) ∧ c.length = len + 7 ∧
    slice c (4 + len) (7 + len) ≠ [cks (slice c 4 (4 + len)), 0x0D#8, 0x0A#8] ∧ 0xA0#8 ∈ c.tail ∧
    (pushDecoder Decoder.reset (c ++ frameOf payload)).dstate = .complete ∧
    (pushDecoder Decoder.reset (c ++ frameOf payload)).cap ≠ frameOf payload

/-- R180: what Complete guarantees of the held frame (R38), and that a scanning step completes no other frame. -/
def Obligations.CompleteHoldsAValidFrame : Prop :=
  (∀ s : State, s.Inv → s.dec.dstate = .complete → ∃ payload : Bytes,
    payload.length = s.dec.dlen.toNat ∧
    s.dec.cap = [0xA0#8, 0xA1#8] ++ beBytes 2 payload.length ++ payload ++ [cks payload, 0x0D#8, 0x0A#8] ∧
    slice s.dec.cap 4 (4 + s.dec.dlen.toNat) = payload ∧
    slice s.dec.cap (4 + s.dec.dlen.toNat) (5 + s.dec.dlen.toNat) = [cks payload]) ∧
  (∀ (c : Scan) (b : Byte), CandidateInv c.dec → c.dec.dstate ≠ .complete → (dstep c b).dec.dstate = .complete →
    ∃ payload : Bytes, payload.length = (dstep c b).dec.dlen.toNat ∧ (dstep c b).dec.cap = frameOf payload)

/-- R70, R74, R75, R81: every payload of 0 to 65535 bytes, markers among them or not, makes a frame of 7 to 65542 bytes that the decoder
accepts whole and holds, with no Invalid event. -/
def Obligations.EveryPayloadDecodes : Prop :=
  ∀ (d : Decoder) (payload : Bytes), payload.length ≤ 65535 → d.dstate = .seekStart1 → d.replay = [] →
    (frameOf payload).length = payload.length + 7 ∧
    pushAccepted d (frameOf payload) = payload.length + 7 ∧ pushInv d (frameOf payload) = 0 ∧
    pushDecoder d (frameOf payload) =
      { d with
        dstate := .complete
        dlen := BitVec.ofNat 16 payload.length
        dcnt := BitVec.ofNat 16 payload.length
        dcs := cks payload
        cap := frameOf payload
        frmCnt := d.frmCnt + 1 }

/-- R181, R253: DEC_PUSH always responds OK, and so does DEC_TAKE when a frame is held, whatever Invalid events they raise. -/
def Obligations.FramingErrorsAreAbsorbed : Prop :=
  ∀ s : State, (∀ data, ∃ t fields, Responds (.decPush data) s t (0x00#8 :: fields)) ∧
    (s.dec.dstate = .complete → ∃ t fields, Responds .decTake s t (0x00#8 :: fields))

/-- R29, R30: DEC_PUSH and DEC_TAKE add to INV_CNT the Invalid events they report and to FRM_CNT one if they complete a frame, both modulo
2^32; every other command but RST keeps both. -/
def Obligations.CountersCountTheEvents : Prop :=
  ∀ (i : Instr) (s t : State) (r : Bytes), Responds i s t r → i ≠ .rst →
    (writesDecoder i = false ∨ i = .decFlush → t.dec.invCnt = s.dec.invCnt ∧ t.dec.frmCnt = s.dec.frmCnt) ∧
    (∀ data, i = .decPush data → ∃ n, slice r 3 7 = beBytes 4 n ∧ t.dec.invCnt = s.dec.invCnt + BitVec.ofNat 32 n ∧
      t.dec.frmCnt =
        s.dec.frmCnt + if s.dec.dstate ≠ .complete ∧ t.dec.dstate = .complete then 1 else 0) ∧
    (i = .decTake → s.dec.dstate = .complete → ∃ n fields flags, r = 0x00#8 :: (fields ++ beBytes 4 n ++ [flags]) ∧
      t.dec.invCnt = s.dec.invCnt + BitVec.ofNat 32 n ∧
      t.dec.frmCnt = s.dec.frmCnt + if t.dec.dstate = .complete then 1 else 0)

/-! ### GPS time converter -/

/-- R213: GTC_DECODE responds the 13 record bytes at payload offsets 16 to 28 when there are at least 29 bytes, and TRUNCATED otherwise; no
state element changes. -/
def Obligations.GtcDecodeReturnsTheRecord : Prop :=
  ∀ (p : Bytes) (s : State), encode (.gtcDecode p) = 0x40#8 :: (beBytes 2 p.length ++ p) ∧
    (29 ≤ p.length → ∃ t, Responds (.gtcDecode p) s t (0x00#8 :: slice p 16 29) ∧ SameBlock s t ∧
      (gdecode p).tow.toNat = be (slice p 16 20) ∧ (gdecode p).stow.toNat = be (slice p 20 24) ∧
      (gdecode p).wn.toNat = be (slice p 24 26) ∧ slice p 26 29 = [(gdecode p).defleap, (gdecode p).curleap, (gdecode p).valid]) ∧
    (p.length < 29 → ∃ t, Responds (.gtcDecode p) s t [0x03#8] ∧ SameBlock s t)

/-- R211, R214: GTC_EPOCH responds the exact seconds, the low 32 bits of the exact nanoseconds and NS_OVF; no state element changes. -/
def Obligations.GtcEpochConvertsTheRecord : Prop :=
  ∀ (rc : GpsTime) (s : State),
    encode (.gtcEpoch rc) = [0x41#8] ++ beBytes 4 rc.tow.toNat ++ beBytes 4 rc.stow.toNat ++ beBytes 2 rc.wn.toNat ++
      [rc.defleap, rc.curleap, rc.valid] ∧
    ∃ (t : State) (sec : Int) (ns : Nat),
    sec = 315964800 + (rc.wn.toNat : Int) * 604800 + (rc.tow.toNat : Int) / 1000 - rc.defleap.toInt ∧
    ns = rc.tow.toNat % 1000 * 1000000 + rc.stow.toNat ∧
    Responds (.gtcEpoch rc) s t
      (0x00#8 :: (beBytes 8 (sec % 2 ^ 64).toNat ++ beBytes 4 (ns % 2 ^ 32) ++ [if 2 ^ 32 ≤ ns then 0x01#8 else 0x00#8])) ∧
    SameBlock s t

/-- R215: GTC_CONVERT responds what GTC_DECODE responds, then what GTC_EPOCH responds for the decoded record, or TRUNCATED. -/
def Obligations.GtcConvertDecodesAndConverts : Prop :=
  ∀ (p : Bytes) (s : State), encode (.gtcConvert p) = 0x42#8 :: (beBytes 2 p.length ++ p) ∧
    (29 ≤ p.length → ∃ t u v rc ep, Responds (.gtcDecode p) s u (0x00#8 :: rc) ∧
      Responds (.gtcEpoch (gdecode p)) s v (0x00#8 :: ep) ∧ Responds (.gtcConvert p) s t (0x00#8 :: (rc ++ ep)) ∧ SameBlock s t) ∧
    (p.length < 29 → ∃ t, Responds (.gtcConvert p) s t [0x03#8] ∧ SameBlock s t)

/-- R212: no information is lost when the nanosecond sum exceeds 32 bits, and nothing of it is carried into the seconds. -/
def Obligations.NanosecondOverflowLosesNothing : Prop :=
  (∀ t : GpsTime, nsExact t = (gepoch t).ns.toNat + (if (gepoch t).nsOvf then 2 ^ 32 else 0) ∧
    (gepoch t).ns.toNat = nsExact t % 2 ^ 32 ∧ ((gepoch t).nsOvf = true ↔ 2 ^ 32 ≤ nsExact t) ∧ nsExact t ≤ 5293967295 ∧
    ∀ stow, (gepoch { t with stow := stow }).sec = (gepoch t).sec) ∧
  ∃ t : GpsTime, nsExact t = 5293967295

/-- R217: the ranges of `sec` and of the exact nanoseconds, with the records that reach the bounds. -/
def Obligations.EpochRanges : Prop :=
  (∀ t : GpsTime, 315964673 ≤ (gepoch t).sec ∧ (gepoch t).sec ≤ 39955827895 ∧ nsExact t ≤ 5293967295) ∧
  (∀ t : GpsTime, t.wn = 0 → t.tow = 0 → t.defleap.toInt = 127 → (gepoch t).sec = 315964673 ∧ (t.stow = 0 → nsExact t = 0)) ∧
  (∀ t : GpsTime, t.wn.toNat = 65535 → t.tow.toNat = 4294967295 → t.defleap.toInt = -128 → (gepoch t).sec = 39955827895) ∧
  (∃ t : GpsTime, nsExact t = 5293967295)

/-- R216: the converter reads nothing but payload bytes 16 to 28 and checks nothing but the length; the current leap seconds and the
validity flag affect no result (R218). -/
def Obligations.ConverterReadsOnlyTheRecord : Prop :=
  (∀ (p q : Bytes) (s : State), 29 ≤ p.length → 29 ≤ q.length → slice p 16 29 = slice q 16 29 →
    exec (.gtcDecode p) s = exec (.gtcDecode q) s ∧ exec (.gtcConvert p) s = exec (.gtcConvert q) s ∧
    (∃ t fields, Responds (.gtcDecode p) s t (0x00#8 :: fields)) ∧ ∃ t fields, Responds (.gtcConvert p) s t (0x00#8 :: fields)) ∧
  (∀ (t : GpsTime) (curleap valid : Byte), gepoch { t with curleap := curleap, valid := valid } = gepoch t)

/-! ### Invariants and frames -/

/-- R28, R31, R32: every step keeps the decoder invariant. -/
def Obligations.EveryStepKeepsTheDecoderInvariant : Prop :=
  ∀ s t : State, s.Inv → step s = .next t → t.Inv

/-- The invariant holds after reset (R36). -/
def Obligations.ResetMeetsTheDecoderInvariant : Prop := State.reset.Inv

/-- The frame of every command: the channel and the HOST's moves are unchanged; only RST, CKS_CLR and CKS_FEED write CKS_ACC (R122, R123,
R240); only RST, DEC_PUSH, DEC_TAKE and DEC_FLUSH write the decoder (R172, R173, R175); the responses before stay. -/
def Obligations.FrameOfEveryCommand : Prop :=
  ∀ (i : Instr) (s t : State), exec i s = .next t →
    t.chan = s.chan ∧ t.host = s.host ∧ (∃ r, t.responses = s.responses ++ [r]) ∧
    (writesCksAcc i = false → t.cksAcc = s.cksAcc) ∧ (writesDecoder i = false → t.dec = s.dec)

/-- R33: the encoder and the converter compute their response from their operands alone and write no state element. R56: DEC_STATUS and
CKS_READ have no side effect and issued twice give the same response twice. -/
def Obligations.StatelessUnitsAndReaders : Prop :=
  (∀ (i : Instr), (∃ id body, i = .encFrame id body) ∨ (∃ p, i = .gtcDecode p) ∨ (∃ rc, i = .gtcEpoch rc) ∨ (∃ p, i = .gtcConvert p) →
    ∃ r, ∀ s, ∃ t, Responds i s t r ∧ SameBlock s t) ∧
  (∀ (i : Instr) (s : State), i = .decStatus ∨ i = .cksRead →
    ∃ t u r, Responds i s t r ∧ Responds i t u r ∧ SameBlock s t ∧ SameBlock t u)

/-! ### Assembler -/

/-- R98, R99: whatever program text the assembler accepts, its commands are well formed and legal, and the bytes it emits are their
encodings in order. Every list of well-formed legal commands has a text, one command a line, that assembles to it; a comment says nothing; a
number may be hexadecimal or decimal. The white space that text uses and its minus signs are the model's choice (log entry 14). -/
def Obligations.AssembledCommandsAreWellFormed : Prop :=
  ∀ p : RebootParams,
    (∀ (text : List Char) (cmds : List Instr), assembleProgram p text = .done cmds →
      (∀ i ∈ cmds, i.WellFormed = true ∧ ∀ op, i ≠ .illegal op) ∧ assembleBytes p text = .done (cmds.map encode).flatten) ∧
    (∀ cmds : List Instr, (∀ i ∈ cmds, i.WellFormed = true ∧ ∀ op, i ≠ .illegal op) →
      assembleProgram p (programText cmds) = .done cmds) ∧
    (∀ line rest : List Char, '\n' ∉ line → assembleProgram p (line ++ '\n' :: rest) =
      (assembleLine p line).bind fun is => (assembleProgram p rest).bind fun more => .done (is ++ more)) ∧
    (∀ line comment : List Char, assembleLine p (line ++ ';' :: comment) = assembleLine p line) ∧
    ∀ k n : Nat, 0 < k → (n < 16 ^ k → tokOf (hexText k n) = .done (.num n)) ∧ (n < 10 ^ k → tokOf (decText k n) = .done (.num n))

/-- R9, R98, R99: the assembler takes the values of each type's range, with those values, and refuses every other: a byte, a byte list (its
length included), the operand of ACK and NACK, the operands of ENC_FRAME and of REBOOT (R102), and each field of a record at the width R9 gives
it. A line of each mnemonic of R87 and R100 to R103 gives its command or its expansion where the operands are taken, refuses what they refuse,
and no other mnemonic is taken. That a record is taken in one order of its fields only is the model's choice (log entry 14). -/
def Obligations.AssemblerRefusesOutOfRange : Prop :=
  (∀ v : Int, (0 ≤ v ∧ v ≤ 255 → ∃ b : Byte, byteOf v = .done b ∧ oneByte [.num v] = .done b ∧ (b.toNat : Int) = v) ∧
    (v < 0 ∨ 255 < v → byteOf v = .refused .valueOutOfRange ∧ oneByte [.num v] = .refused .valueOutOfRange) ∧
    (-128 ≤ v ∧ v ≤ 127 → ∃ b : Byte, signedField v = .done b ∧ b.toInt = v) ∧
    (v < -128 ∨ 127 < v → signedField v = .refused .fieldOutOfRange)) ∧
  (∀ (w : Nat) (v : Int), (0 ≤ v ∧ v < 2 ^ w → ∃ x : BitVec w, unsignedField w v = .done x ∧ (x.toNat : Int) = v) ∧
    (v < 0 ∨ 2 ^ w ≤ v → unsignedField w v = .refused .fieldOutOfRange)) ∧
  (∀ (toks : List Tok) (bs : Bytes), byteList toks = .done bs →
    bs.length ≤ 65535 ∧ toks = listTokens (bs.map fun b => (b.toNat : Int))) ∧
  (∀ vs : List Int, (∃ v ∈ vs, v < 0 ∨ 255 < v) ↔ bytesOf vs = .refused .valueOutOfRange) ∧
  (∀ vs : List Int,
    (65535 < vs.length → byteList (listTokens vs) = .refused .listTooLong) ∧
    (vs.length ≤ 65535 → (∃ v ∈ vs, v < 0 ∨ 255 < v) → byteList (listTokens vs) = .refused .valueOutOfRange) ∧
    (vs.length ≤ 65535 → (∀ v ∈ vs, 0 ≤ v ∧ v ≤ 255) →
      ∃ bs : Bytes, byteList (listTokens vs) = .done bs ∧ bs.map (fun b => (b.toNat : Int)) = vs)) ∧
  (∀ (id : Int) (vs : List Int),
    (id < 0 ∨ 255 < id → encFrameOperands (.num id :: .comma :: listTokens vs) = .refused .valueOutOfRange) ∧
    (∀ e, 0 ≤ id ∧ id ≤ 255 → byteList (listTokens vs) = .refused e →
      encFrameOperands (.num id :: .comma :: listTokens vs) = .refused e) ∧
    (∀ bs, 0 ≤ id ∧ id ≤ 255 → byteList (listTokens vs) = .done bs →
      ∃ b : Byte, encFrameOperands (.num id :: .comma :: listTokens vs) = .done (.encFrame b bs) ∧ (b.toNat : Int) = id)) ∧
  (∀ tow stow wn defleap curleap valid : Int,
    let ok := (0 ≤ tow ∧ tow ≤ 4294967295) ∧ (0 ≤ stow ∧ stow ≤ 4294967295) ∧ (0 ≤ wn ∧ wn ≤ 65535) ∧
      (-128 ≤ defleap ∧ defleap ≤ 127) ∧ (-128 ≤ curleap ∧ curleap ≤ 127) ∧ (0 ≤ valid ∧ valid ≤ 255)
    (ok → ∃ t : GpsTime, record (recordTokens tow stow wn defleap curleap valid) = .done t ∧
      (t.tow.toNat : Int) = tow ∧ (t.stow.toNat : Int) = stow ∧ (t.wn.toNat : Int) = wn ∧ t.defleap.toInt = defleap ∧
      t.curleap.toInt = curleap ∧ (t.valid.toNat : Int) = valid) ∧
    (¬ ok → record (recordTokens tow stow wn defleap curleap valid) = .refused .fieldOutOfRange)) ∧
  (∀ (toks : List Tok) (t : GpsTime), record toks = .done t →
    toks = recordTokens t.tow.toNat t.stow.toNat t.wn.toNat t.defleap.toInt t.curleap.toInt t.valid.toNat) ∧
  (∀ (m : RebootMode) (w : List Char) (year month day hour minute second : Int),
    w = (match m with | .hot => "HOT".toList | .warm => "WARM".toList | .cold => "COLD".toList) →
    let ok := (0 ≤ year ∧ year ≤ 65535) ∧ ∀ v ∈ [month, day, hour, minute, second], 0 ≤ v ∧ v ≤ 255
    (ok → ∃ (y : BitVec 16) (mo d h mi se : Byte),
      rebootOperands (rebootTokens w year month day hour minute second) = .done (.reboot m y mo d h mi se) ∧
      (y.toNat : Int) = year ∧ [mo, d, h, mi, se].map (fun b => (b.toNat : Int)) = [month, day, hour, minute, second]) ∧
    (¬ ok → rebootOperands (rebootTokens w year month day hour minute second) = .refused .valueOutOfRange)) ∧
  ∀ (p : RebootParams) (toks : List Tok),
    (∀ d, byteList toks = .done d →
      assembleTokens p (.word "CKS_FEED".toList :: toks) = .done [.cksFeed d] ∧
      assembleTokens p (.word "DEC_PUSH".toList :: toks) = .done [.decPush d] ∧
      assembleTokens p (.word "GTC_DECODE".toList :: toks) = .done [.gtcDecode d] ∧
      assembleTokens p (.word "GTC_CONVERT".toList :: toks) = .done [.gtcConvert d] ∧
      assembleTokens p (.word "CKS_CALC".toList :: toks) = .done [.cksClr, .cksFeed d]) ∧
    (∀ e, byteList toks = .refused e → ∀ m ∈ ["CKS_FEED", "DEC_PUSH", "GTC_DECODE", "GTC_CONVERT", "CKS_CALC"],
      assembleTokens p (.word m.toList :: toks) = .refused e) ∧
    (∀ i, encFrameOperands toks = .done i → assembleTokens p (.word "ENC_FRAME".toList :: toks) = .done [i]) ∧
    (∀ e, encFrameOperands toks = .refused e → assembleTokens p (.word "ENC_FRAME".toList :: toks) = .refused e) ∧
    (∀ t, record toks = .done t → assembleTokens p (.word "GTC_EPOCH".toList :: toks) = .done [.gtcEpoch t]) ∧
    (∀ e, record toks = .refused e → assembleTokens p (.word "GTC_EPOCH".toList :: toks) = .refused e) ∧
    (∀ m y mo d h mi se, rebootOperands toks = .done (.reboot m y mo d h mi se) →
      assembleTokens p (.word "REBOOT".toList :: toks) = .done [.encFrame 0x01#8 ([rebootModeByte p m,
        y.extractLsb' 8 8, y.extractLsb' 0 8, mo, d, h, mi, se] ++ p.tail.toList)]) ∧
    (∀ e, rebootOperands toks = .refused e → assembleTokens p (.word "REBOOT".toList :: toks) = .refused e) ∧
    (∀ b, oneByte toks = .done b → assembleTokens p (.word "ACK".toList :: toks) = .done [.encFrame 0x83#8 [b]] ∧
      assembleTokens p (.word "NACK".toList :: toks) = .done [.encFrame 0x84#8 [b]]) ∧
    (∀ e, oneByte toks = .refused e → ∀ m ∈ ["ACK", "NACK"], assembleTokens p (.word m.toList :: toks) = .refused e) ∧
    (∀ c ∈ [("RST", [Instr.rst]), ("CKS_CLR", [.cksClr]), ("CKS_READ", [.cksRead]), ("DEC_TAKE", [.decTake]),
        ("DEC_STATUS", [.decStatus]), ("DEC_FLUSH", [.decFlush]), ("TIMEQ", [.encFrame 0x64#8 [0x20#8]])],
      assembleTokens p (.word c.1.toList :: toks) = if toks = [] then .done c.2 else .refused .badOperands) ∧
    (∀ w : List Char, w ∉ ["RST", "CKS_CLR", "CKS_FEED", "CKS_READ", "ENC_FRAME", "DEC_PUSH", "DEC_TAKE", "DEC_STATUS", "DEC_FLUSH",
        "GTC_DECODE", "GTC_EPOCH", "GTC_CONVERT", "TIMEQ", "CKS_CALC", "REBOOT", "ACK", "NACK"].map String.toList →
      assembleTokens p (.word w :: toks) = .refused .unknownMnemonic)
end

