-- ==== Sys2Proof/Laws/Assembler.lean ====
section
/-! SUPPORT. The assembler's results: what `Asm.bind` answers, the tokens of a byte list read back, and
what the lexer makes of a word, a punctuation character and a space (R98, R99). -/

namespace Sys2Proof.Laws

open Sys2Proof.Machine

@[simp] theorem bind_done {α β : Type} (a : α) (f : α → Asm β) : (Asm.done a).bind f = f a := rfl
@[simp] theorem bind_refused {α β : Type} (e : AsmError) (f : α → Asm β) : (Asm.refused e).bind f = .refused e := rfl

/-- Every way a bind can answer a result. -/
theorem bind_eq_done {α β : Type} {x : Asm α} {f : α → Asm β} {b : β} : x.bind f = .done b ↔ ∃ a, x = .done a ∧ f a = .done b := by
  cases x <;> simp

/-- A list of numbers, written with commas and closed by a bracket, is its first number and a tail `listTail` reads. -/
theorem listTail_of_tokens (vs : List Int) : ∀ v, ∃ rest,
    ((v :: vs).map Tok.num).intersperse .comma ++ [.rbrack] = .num v :: rest ∧ listTail rest = some vs := by
  induction vs with
  | nil => exact fun v => ⟨[.rbrack], rfl, rfl⟩
  | cons w vs ih =>
    intro v
    obtain ⟨rest, h1, h2⟩ := ih w
    refine ⟨.comma :: .num w :: rest, ?_, by simp [listTail, h2]⟩
    simp only [List.map_cons, List.intersperse] at h1 ⊢
    simp [h1]

/-- What `listTail` reads is exactly what the numbers are written as. -/
theorem tokens_of_listTail : ∀ (toks : List Tok) (vs : List Int), listTail toks = some vs →
    ∀ v, .num v :: toks = ((v :: vs).map Tok.num).intersperse .comma ++ [.rbrack] := by
  intro toks
  induction toks using listTail.induct with
  | case1 => rintro _ ⟨⟩ v; rfl
  | case2 w rest ih =>
    intro vs h v
    simp only [listTail, Option.map_eq_some_iff] at h
    obtain ⟨ws, h1, rfl⟩ := h
    have := ih ws h1 w
    simp only [List.map_cons, List.intersperse] at this ⊢
    simp [this]
  | case3 => intro vs h; simp_all [listTail]

/-- The tokens of a byte list are read as its values, unless it is too long. -/
theorem byteList_listTokens (vs : List Int) :
    byteList (listTokens vs) = if maxLen < vs.length then .refused .listTooLong else bytesOf vs := by
  cases vs with
  | nil => rfl
  | cons v vs =>
    obtain ⟨rest, h1, h2⟩ := listTail_of_tokens vs v
    unfold listTokens
    rw [h1]
    simp [byteList, h2]

/-! ### Text -/

/-- The digits `digitsOf` writes are read as the value they were written for, below `base ^ k`. -/
theorem digitsValue_digitsOf {base : Nat} (hb : 0 < base) (h : ∀ d < base, digitValue base (digitChar d) = some d) (n : Nat) :
    ∀ k acc, digitsValue base acc (digitsOf base k n) = some (acc * base ^ k + n % base ^ k) := by
  intro k
  induction k with
  | zero => intro acc; simp [digitsValue, digitsOf, Nat.mod_one]
  | succ k ih =>
    intro acc
    simp only [digitsOf, digitsValue, h _ (Nat.mod_lt _ hb), ih]
    rw [Nat.pow_succ, Nat.mod_mul]
    congr 1
    ring

/-- Word characters only lengthen the pending word. -/
theorem lexLine_run (w : List Char) (hw : ∀ c ∈ w, isWordChar c = true) (rest : List Char) :
    ∀ pending, lexLine pending (w ++ rest) = lexLine (w.reverse ++ pending) rest := by
  induction w with
  | nil => simp
  | cons c w ih =>
    intro pending
    have hc := hw c (by simp)
    have h1 : c ≠ ';' := by rintro rfl; revert hc; decide
    simp only [List.cons_append, lexLine, h1, hc, if_true, if_false]
    rw [ih (fun d hd => hw d (by simp [hd]))]
    simp

/-- At the end of a word the pending word is a token of its own, before what follows. -/
theorem lexLine_stop (pending rest : List Char) (hr : ∀ c ∈ rest.head?, isWordChar c = false)
    (hb : ∀ e, lexLine [] rest ≠ .refused e) : lexLine pending rest = flushWord pending (lexLine [] rest) := by
  cases rest with
  | nil => simp [lexLine, flushWord]
  | cons c rest =>
    have hc : isWordChar c = false := hr c (by simp)
    simp only [lexLine, hc]
    split
    · simp [flushWord]
    · split
      · simp at *
      · split
        · simp [flushWord]
        · split
          · simp [flushWord]
          · rename_i h1 _ h2 _ h3
            exact absurd (by simp [lexLine, hc, h1, h2, h3]) (hb .badToken)

/-- A word of word characters before something else is one token. -/
theorem lexLine_word {w rest : List Char} {t : Tok} {ts : List Tok} (hw : ∀ c ∈ w, isWordChar c = true) (ht : tokOf w = .done t)
    (hr : ∀ c ∈ rest.head?, isWordChar c = false) (hl : lexLine [] rest = .done ts) : lexLine [] (w ++ rest) = .done (t :: ts) := by
  rw [lexLine_run w hw, lexLine_stop _ rest hr (by simp [hl]), hl]
  have : w ≠ [] := by rintro rfl; simp [tokOf] at ht
  simp only [List.append_nil, flushWord]
  split
  · simp_all
  · simp [ht]

/-- A punctuation character is one token. -/
theorem lexLine_punctuation {c : Char} {t : Tok} {ts : List Tok} {rest : List Char}
    (h : c ≠ ';' ∧ isWordChar c = false ∧ c.isWhitespace = false ∧ punctuation c = some t) (hl : lexLine [] rest = .done ts) :
    lexLine [] (c :: rest) = .done (t :: ts) := by
  obtain ⟨h1, h2, h3, h4⟩ := h
  simp [lexLine, h1, h2, h3, h4, hl, flushWord]

/-- A space between tokens says nothing. -/
theorem lexLine_space (rest : List Char) : lexLine [] (' ' :: rest) = lexLine [] rest := by
  simp [lexLine, isWordChar, flushWord]

end Sys2Proof.Laws
end

