-- ==== Sys2Proof/Laws/Bytes.lean ====
section
/-! SUPPORT. Big-endian sequences, slices, signed bytes and the checksum function. -/

namespace Sys2Proof.Machine

/-! ### Big-endian -/

@[simp] theorem beBytes_length (n v : Nat) : (beBytes n v).length = n := by
  induction n with
  | zero => rfl
  | succ n ih => simp [beBytes, ih]

/-- The fold of `be` from a start value. -/
theorem foldl_be (s : Bytes) (a : Nat) :
    s.foldl (fun v b => v * 256 + b.toNat) a = a * 256 ^ s.length + be s := by
  unfold be
  induction s generalizing a with
  | nil => simp
  | cons b s ih =>
    simp only [List.foldl_cons, List.length_cons]
    rw [ih, ih (0 * 256 + b.toNat)]
    ring

@[simp] theorem be_nil : be [] = 0 := rfl

theorem be_cons (b : Byte) (s : Bytes) : be (b :: s) = b.toNat * 256 ^ s.length + be s := by
  have := foldl_be s b.toNat
  simpa [be] using this

theorem be_append (s t : Bytes) : be (s ++ t) = be s * 256 ^ t.length + be t := by
  have := foldl_be t (be s)
  rw [← this]
  simp [be, List.foldl_append]

theorem be_pair (hi lo : Byte) : be [hi, lo] = hi.toNat * 256 + lo.toNat := by simp [be]

theorem be_lt (s : Bytes) : be s < 256 ^ s.length := by
  induction s with
  | nil => simp
  | cons b s ih =>
    have hb : b.toNat < 256 := b.isLt
    rw [be_cons, List.length_cons, pow_succ]
    nlinarith

/-- `be_N` and `be` (R13): the value modulo `256^N`. -/
theorem be_beBytes (n v : Nat) : be (beBytes n v) = v % 256 ^ n := by
  induction n with
  | zero => simp [beBytes, Nat.mod_one]
  | succ n ih =>
    have hb : (BitVec.ofNat 8 (v / 256 ^ n)).toNat = v / 256 ^ n % 256 := by simp
    rw [beBytes, be_cons, beBytes_length, ih, hb, pow_succ, Nat.mod_mul, Nat.mul_comm (256 ^ n), Nat.add_comm]

/-- `be_N` depends on the value modulo `256^N` only (R13). -/
theorem beBytes_congr (n : Nat) : ∀ {v w : Nat}, v % 256 ^ n = w % 256 ^ n → beBytes n v = beBytes n w := by
  induction n with
  | zero => intros; rfl
  | succ n ih =>
    intro v w h
    have low : v % 256 ^ n = w % 256 ^ n := by
      have := congrArg (· % 256 ^ n) h
      simpa [Nat.mod_mod_of_dvd _ (pow_dvd_pow 256 (Nat.le_succ n))] using this
    have high : v / 256 ^ n % 256 = w / 256 ^ n % 256 := by
      have := congrArg (· / 256 ^ n) h
      simpa [pow_succ, Nat.mod_mul_right_div_self] using this
    simp only [beBytes, ih low, List.cons.injEq, and_true]
    exact BitVec.eq_of_toNat_eq (by simpa using high)

/-- A sequence is the `be_N` of its own value. -/
theorem beBytes_be (s : Bytes) : beBytes s.length (be s) = s := by
  induction s with
  | nil => rfl
  | cons b s ih =>
    have hlt := be_lt s
    rw [List.length_cons, beBytes, be_cons]
    congr 1
    · apply BitVec.eq_of_toNat_eq
      rw [BitVec.toNat_ofNat, Nat.add_comm, Nat.add_mul_div_right _ _ (by positivity), Nat.div_eq_of_lt hlt]
      simp [Nat.mod_eq_of_lt b.isLt]
    · exact (beBytes_congr _ (by simp)).trans ih

/-! ### The checksum -/

@[simp] theorem cks_nil : cks [] = 0x00#8 := rfl

theorem foldl_xor (s : Bytes) (a : Byte) : s.foldl (· ^^^ ·) a = a ^^^ cks s := by
  unfold cks
  induction s generalizing a with
  | nil => simp
  | cons b s ih =>
    simp only [List.foldl_cons]
    rw [ih, ih (0x00#8 ^^^ b)]
    simp [BitVec.xor_assoc]

theorem cks_cons (b : Byte) (s : Bytes) : cks (b :: s) = b ^^^ cks s := by
  have := foldl_xor s b
  simpa [cks] using this

/-- Splitting a range does not change its checksum (R121). -/
theorem cks_append (s t : Bytes) : cks (s ++ t) = cks s ^^^ cks t := by
  rw [← foldl_xor t (cks s)]
  simp [cks, List.foldl_append]

@[simp] theorem cks_singleton (b : Byte) : cks [b] = b := by simp [cks]

/-! ### Slices -/

theorem slice_length (s : Bytes) (i j : Nat) (h : j ≤ s.length) : (slice s i j).length = j - i := by
  simp [slice]
  omega

/-- A slice in the middle of a concatenation. -/
theorem slice_append_middle (a b c : Bytes) : slice (a ++ b ++ c) a.length (a.length + b.length) = b := by
  simp [slice]

end Sys2Proof.Machine
end

