-- ==== Sys2Proof/Laws/Decode.lean ====
section
/-! SUPPORT. The opcode map, counted byte lists and time records, each read back from what the encoder writes and the other way. -/

namespace Sys2Proof

open Sys2Proof.Machine

/-- Every opcode value stands for its opcode: no two rows of R87 overlap. -/
@[simp] theorem opcodeOf_opcodeByte (o : Opcode) : opcodeOf (opcodeByte o) = some o := by cases o <;> rfl

/-- All 8 bits are matched (R87). -/
theorem opcodeByte_of_opcodeOf {b : Byte} {o : Opcode} (h : opcodeOf b = some o) : opcodeByte o = b := by
  have := List.find?_some h
  simpa using this

/-- An illegal opcode's byte is no opcode value. -/
theorem opcodeOf_eq_none {b : Byte} : opcodeOf b = none ↔ ∀ o, opcodeByte o ≠ b := by
  constructor
  · intro h o ho
    simp [← ho] at h
  · intro h
    rcases hb : opcodeOf b with _ | o
    · rfl
    · exact absurd (opcodeByte_of_opcodeOf hb) (h o)

/-- A counted byte list is read back, whatever follows it (R88, R95). -/
theorem decodeCounted_encodeCounted (mk : Bytes → Instr) {data : Bytes} (h : Bytes.FitsCount data) (rest : Bytes) :
    decodeCounted mk (encodeCounted data ++ rest) = .command (mk data) rest := by
  have hn : be (beBytes 2 data.length) = data.length := by
    have h' : data.length ≤ 65535 := h
    rw [be_beBytes]
    exact Nat.mod_eq_of_lt (by omega)
  simp only [encodeCounted, beBytes] at hn ⊢
  simp only [List.cons_append, List.nil_append, decodeCounted, hn]
  simp

/-- What a counted byte list was read from. -/
theorem decodeCounted_eq_command {mk : Bytes → Instr} {bs rest : Bytes} {i : Instr}
    (h : decodeCounted mk bs = .command i rest) :
    ∃ data, i = mk data ∧ Bytes.FitsCount data ∧ bs = encodeCounted data ++ rest := by
  rcases bs with _ | ⟨hi, _ | ⟨lo, tl⟩⟩
  · simp [decodeCounted] at h
  · simp [decodeCounted] at h
  · simp only [decodeCounted] at h
    split at h
    · rename_i hle
      simp only [Decoded.command.injEq] at h
      obtain ⟨rfl, rfl⟩ := h
      have hlt := be_lt [hi, lo]
      have hlen : (tl.take (be [hi, lo])).length = be [hi, lo] := by simp only [List.length_take]; omega
      refine ⟨_, rfl, ?_, ?_⟩
      · change (tl.take (be [hi, lo])).length ≤ 65535
        rw [hlen]
        simp only [List.length_cons, List.length_nil] at hlt
        omega
      · have := beBytes_be [hi, lo]
        simp only [List.length_cons, List.length_nil, Nat.zero_add, Nat.reduceAdd] at this
        rw [encodeCounted, hlen, this]
        simp
    · simp at h

/-- A number that fits `n` bytes is read back from its big-endian bytes. -/
theorem ofNat_be_beBytes {w n : Nat} (v : BitVec w) (h : 2 ^ w ≤ 256 ^ n) : BitVec.ofNat w (be (beBytes n v.toNat)) = v := by
  rw [be_beBytes, Nat.mod_eq_of_lt (lt_of_lt_of_le v.isLt h)]
  simp

/-- Bytes are the big-endian bytes of the field they are read into. -/
theorem beBytes_ofNat_be {w : Nat} (s : Bytes) (h : 256 ^ s.length ≤ 2 ^ w) :
    beBytes s.length (BitVec.ofNat w (be s)).toNat = s := by
  rw [BitVec.toNat_ofNat, Nat.mod_eq_of_lt (lt_of_lt_of_le (be_lt s) h), beBytes_be]

/-- A time record is read back, whatever follows it (R88, R95). -/
theorem timeRecordAt_timeRecordBytes (t : GpsTime) (rest : Bytes) : timeRecordAt (timeRecordBytes t ++ rest) 0 = t := by
  obtain ⟨tow, stow, wn, defleap, curleap, valid⟩ := t
  have htow := ofNat_be_beBytes (n := 4) tow (by norm_num)
  have hstow := ofNat_be_beBytes (n := 4) stow (by norm_num)
  have hwn := ofNat_be_beBytes (n := 2) wn (by norm_num)
  have one (b : Byte) : BitVec.ofNat 8 (be [b]) = b := by simp [be]
  simp only [timeRecordAt, timeRecordBytes, opRead]
  match ha : beBytes 4 tow.toNat, hb : beBytes 4 stow.toNat, hc : beBytes 2 wn.toNat, beBytes_length 4 tow.toNat,
    beBytes_length 4 stow.toNat, beBytes_length 2 wn.toNat with
  | [a0, a1, a2, a3], [b0, b1, b2, b3], [c0, c1], _, _, _ =>
    rw [ha] at htow
    rw [hb] at hstow
    rw [hc] at hwn
    simp [slice, htow, hstow, hwn, one]

/-- The 13 bytes of the record read at an offset are the bytes there (R88, R210, R213). -/
theorem timeRecordBytes_timeRecordAt {s : Bytes} {off : Nat} (h : off + 13 ≤ s.length) :
    timeRecordBytes (timeRecordAt s off) = slice s off (off + 13) := by
  obtain ⟨b, tl, hb, htl⟩ : ∃ b tl : Bytes, s.drop off = b ++ tl ∧ b.length = 13 :=
    ⟨(s.drop off).take 13, (s.drop off).drop 13, by simp, by simp; omega⟩
  have hd (k : Nat) : s.drop (off + k) = (b ++ tl).drop k := by rw [← hb, List.drop_drop]
  have one (x : Byte) : BitVec.ofNat 8 (be [x]) = x := by simp [be]
  match b, htl with
  | [b0, b1, b2, b3, b4, b5, b6, b7, b8, b9, b10, b11, b12], _ =>
    have htow := beBytes_ofNat_be (w := 32) [b0, b1, b2, b3] (by norm_num)
    have hstow := beBytes_ofNat_be (w := 32) [b4, b5, b6, b7] (by norm_num)
    have hwn := beBytes_ofNat_be (w := 16) [b8, b9] (by norm_num)
    simp only [List.length_cons, List.length_nil, Nat.zero_add, Nat.reduceAdd] at htow hstow hwn
    simp [timeRecordBytes, timeRecordAt, opRead, slice, hd, hb, one, -BitVec.toNat_ofNat, htow, hstow, hwn]

end Sys2Proof
end

