-- ==== Sys2Proof/Laws/State.lean ====
section
/-! SUPPORT. One lemma per field per update of the state, and what ending a command, resetting and the HOST's turn do. -/

namespace Sys2Proof.Machine

section Updates
variable (s : State) (v : Byte) (d : Decoder) (bs r : Bytes)

@[simp] theorem setCksAcc_cksAcc : (s.setCksAcc v).cksAcc = v := rfl
@[simp] theorem setCksAcc_dec : (s.setCksAcc v).dec = s.dec := rfl
@[simp] theorem setCksAcc_chan : (s.setCksAcc v).chan = s.chan := rfl
@[simp] theorem setCksAcc_host : (s.setCksAcc v).host = s.host := rfl
@[simp] theorem setCksAcc_responses : (s.setCksAcc v).responses = s.responses := rfl

@[simp] theorem setDec_cksAcc : (s.setDec d).cksAcc = s.cksAcc := rfl
@[simp] theorem setDec_dec : (s.setDec d).dec = d := rfl
@[simp] theorem setDec_chan : (s.setDec d).chan = s.chan := rfl
@[simp] theorem setDec_host : (s.setDec d).host = s.host := rfl
@[simp] theorem setDec_responses : (s.setDec d).responses = s.responses := rfl

@[simp] theorem setChan_cksAcc : (s.setChan bs).cksAcc = s.cksAcc := rfl
@[simp] theorem setChan_dec : (s.setChan bs).dec = s.dec := rfl
@[simp] theorem setChan_chan : (s.setChan bs).chan = bs := rfl
@[simp] theorem setChan_host : (s.setChan bs).host = s.host := rfl
@[simp] theorem setChan_responses : (s.setChan bs).responses = s.responses := rfl

@[simp] theorem addResponse_cksAcc : (s.addResponse r).cksAcc = s.cksAcc := rfl
@[simp] theorem addResponse_dec : (s.addResponse r).dec = s.dec := rfl
@[simp] theorem addResponse_chan : (s.addResponse r).chan = s.chan := rfl
@[simp] theorem addResponse_host : (s.addResponse r).host = s.host := rfl
@[simp] theorem addResponse_responses : (s.addResponse r).responses = s.responses ++ [r] := rfl

@[simp] theorem resetBlock_cksAcc : (resetBlock s).cksAcc = 0x00#8 := rfl
@[simp] theorem resetBlock_dec : (resetBlock s).dec = Decoder.reset := rfl
@[simp] theorem resetBlock_chan : (resetBlock s).chan = s.chan := rfl
@[simp] theorem resetBlock_host : (resetBlock s).host = s.host := rfl
@[simp] theorem resetBlock_responses : (resetBlock s).responses = s.responses := rfl

@[simp] theorem powerOnReset_cksAcc : (powerOnReset s).cksAcc = 0x00#8 := rfl
@[simp] theorem powerOnReset_dec : (powerOnReset s).dec = Decoder.reset := rfl
@[simp] theorem powerOnReset_chan : (powerOnReset s).chan = [] := rfl
@[simp] theorem powerOnReset_host : (powerOnReset s).host = s.host := rfl
@[simp] theorem powerOnReset_responses : (powerOnReset s).responses = s.responses := rfl

@[simp] theorem clearCandidate_dstate : (clearCandidate d).dstate = .seekStart1 := rfl
@[simp] theorem clearCandidate_dlen : (clearCandidate d).dlen = 0 := rfl
@[simp] theorem clearCandidate_dcnt : (clearCandidate d).dcnt = 0 := rfl
@[simp] theorem clearCandidate_dcs : (clearCandidate d).dcs = 0 := rfl
@[simp] theorem clearCandidate_cap : (clearCandidate d).cap = [] := rfl
@[simp] theorem clearCandidate_replay : (clearCandidate d).replay = d.replay := rfl
@[simp] theorem clearCandidate_invCnt : (clearCandidate d).invCnt = d.invCnt := rfl
@[simp] theorem clearCandidate_frmCnt : (clearCandidate d).frmCnt = d.frmCnt := rfl

end Updates

/-- What a command that ends with `respond` answers. -/
theorem respond_eq_next {s t : State} {f : Bytes} : respond s f = .next t ↔ t = s.addResponse (0x00#8 :: f) := by
  simp only [respond, statusCode, Host.Outcome.next.injEq]
  exact eq_comm

/-- What a command that raises an error answers: one more response of one byte, and nothing else. -/
theorem raiseError_eq_next {s t : State} {e : Status} : raiseError s e = .next t ↔ t = s.addResponse [statusCode e] := by
  simp only [raiseError, Host.Outcome.next.injEq]
  exact eq_comm

/-- The HOST's turn: nothing, a delivery, or a power-on reset. -/
theorem hostTurn_cases (s : State) :
    (s.host = [] ∧ hostTurn s = s) ∨
    (∃ bs rest, s.host = .send bs :: rest ∧ hostTurn s = { s with chan := s.chan ++ bs, host := rest }) ∨
    (∃ rest, s.host = .assertReset :: rest ∧ hostTurn s = powerOnReset { s with host := rest }) := by
  rcases h : s.host with _ | ⟨_ | _, rest⟩
  · exact .inl ⟨rfl, by simp [hostTurn, h]⟩
  · exact .inr (.inl ⟨_, _, rfl, by simp [hostTurn, h]⟩)
  · exact .inr (.inr ⟨_, rfl, by simp [hostTurn, h]⟩)

/-- A step executes the whole command at the front of the channel, or is the HOST's turn. -/
theorem step_cases (s : State) :
    (∃ i rest, decode s.chan = .command i rest ∧ step s = exec i (s.setChan rest)) ∨
    (∃ why, decode s.chan = .waiting why ∧ step s = .next (hostTurn s)) := by
  rcases h : decode s.chan with ⟨i, rest⟩ | why
  · exact .inl ⟨i, rest, rfl, by simp [step, fetch, h]⟩
  · exact .inr ⟨why, rfl, by simp [step, fetch, h]⟩

end Sys2Proof.Machine
end

