-- ==== Sys2Proof/Laws/Exec.lean ====
section
/-! SUPPORT. What every command does: it answers a next state, which depends on the block's elements alone, with one more response. -/

namespace Sys2Proof.Machine

/-- Every command completes. Its effect on the block and its response are a function of the block's elements (R20); the channel and the
HOST's moves stay, and one response is added (R86). -/
theorem exec_local (i : Instr) : ∃ f : Byte → Decoder → Byte × Decoder × Bytes, ∀ s : State,
    exec i s = .next { s with
      cksAcc := (f s.cksAcc s.dec).1
      dec := (f s.cksAcc s.dec).2.1
      responses := s.responses ++ [(f s.cksAcc s.dec).2.2] } := by
  cases i with
  | rst => exact ⟨fun _ _ => (0, Decoder.reset, [0x00#8]), fun _ => rfl⟩
  | cksClr => exact ⟨fun _ d => (0, d, [0x00#8]), fun _ => rfl⟩
  | cksFeed data => exact ⟨fun a d => (a ^^^ cks data, d, [0x00#8, a ^^^ cks data]), fun _ => rfl⟩
  | cksRead => exact ⟨fun a d => (a, d, [0x00#8, a]), fun _ => rfl⟩
  | encFrame id body =>
    refine ⟨fun a d => (a, d, if maxBody < body.length then [0x02#8] else 0x00#8 :: frameOf (id :: body)), fun s => ?_⟩
    simp only [exec, execEncFrame]
    split <;> rfl
  | decPush data => exact ⟨fun a d => (a, pushDecoder d data, 0x00#8 :: (beBytes 2 (pushAccepted d data) ++
      beBytes 4 (pushInv d data) ++ [doneFlags (pushDecoder d data)])), fun _ => rfl⟩
  | decTake =>
    refine ⟨fun a d =>
      if d.dstate = .complete then
        (a, (drain (startScan (clearCandidate d))).dec,
          0x00#8 :: (heldFrameFields d ++ beBytes 4 (drain (startScan (clearCandidate d))).ninv ++
            [doneFlags (drain (startScan (clearCandidate d))).dec]))
      else (a, d, [0x04#8]), fun s => ?_⟩
    simp only [exec, execDecTake]
    split <;> rfl
  | decStatus => exact ⟨fun a d => (a, d, 0x00#8 :: statusFields d), fun _ => rfl⟩
  | decFlush => exact ⟨fun a d => (a, { clearCandidate d with replay := [] }, [0x00#8]), fun _ => rfl⟩
  | gtcDecode p =>
    refine ⟨fun a d => (a, d, if p.length < minTimePayload then [0x03#8] else 0x00#8 :: timeRecordBytes (gdecode p)),
      fun s => ?_⟩
    simp only [exec, execGtcDecode]
    split <;> rfl
  | gtcEpoch t => exact ⟨fun a d => (a, d, 0x00#8 :: epochFields (gepoch t)), fun _ => rfl⟩
  | gtcConvert p =>
    refine ⟨fun a d => (a, d, if p.length < minTimePayload then [0x03#8]
      else 0x00#8 :: (timeRecordBytes (gdecode p) ++ epochFields (gepoch (gdecode p)))), fun s => ?_⟩
    simp only [exec, execGtcConvert]
    split <;> rfl
  | illegal op => exact ⟨fun a d => (a, d, [0x01#8]), fun _ => rfl⟩

/-- Executing a command in a state with another channel and other HOST moves does the same to the rest. -/
theorem exec_setChanHost {i : Instr} {s t : State} (h : exec i s = .next t) (bs : Bytes) (hm : List HostMove) :
    exec i { s with chan := bs, host := hm } = .next { t with chan := bs, host := hm } := by
  obtain ⟨f, hf⟩ := exec_local i
  rw [hf] at h ⊢
  cases h
  rfl

/-- Every command completes. -/
theorem exec_next (i : Instr) (s : State) : ∃ t r, Responds i s t r := by
  obtain ⟨f, hf⟩ := exec_local i
  exact ⟨_, _, hf s, rfl, rfl, rfl⟩

/-- What executing a command answers is determined. -/
theorem responds_unique {i : Instr} {s t t' : State} {r r' : Bytes} (h : Responds i s t r) (h' : Responds i s t' r') :
    t = t' ∧ r = r' := by
  obtain ⟨e, hr, _, _⟩ := h
  obtain ⟨e', hr', _, _⟩ := h'
  rw [e] at e'
  cases e'
  rw [hr] at hr'
  exact ⟨rfl, by simpa using hr'⟩

/-! ### One lemma per command -/

/-- A command that ends with `respond` (R14). -/
theorem responds_of_respond {i : Instr} {s s' : State} {f : Bytes} (h : exec i s = respond s' f)
    (hr : s'.responses = s.responses) (hc : s'.chan = s.chan) (hh : s'.host = s.host) :
    Responds i s (s'.addResponse (0x00#8 :: f)) (0x00#8 :: f) :=
  ⟨h, by rw [addResponse_responses, hr], hc, hh⟩

/-- A command that raises an error (R14, R252). -/
theorem responds_of_raiseError {i : Instr} {s : State} {e : Status} (h : exec i s = raiseError s e) :
    Responds i s (s.addResponse [statusCode e]) [statusCode e] := ⟨h, rfl, rfl, rfl⟩

section Commands
variable (s : State) (data p body : Bytes) (id op : Byte) (t : GpsTime)

theorem responds_rst : Responds .rst s ((resetBlock s).addResponse [0x00#8]) [0x00#8] := ⟨rfl, rfl, rfl, rfl⟩

theorem responds_cksClr : Responds .cksClr s ((s.setCksAcc 0x00#8).addResponse [0x00#8]) [0x00#8] := ⟨rfl, rfl, rfl, rfl⟩

theorem responds_cksFeed : Responds (.cksFeed data) s
    ((s.setCksAcc (s.cksAcc ^^^ cks data)).addResponse [0x00#8, s.cksAcc ^^^ cks data]) [0x00#8, s.cksAcc ^^^ cks data] :=
  ⟨rfl, rfl, rfl, rfl⟩

theorem responds_cksRead : Responds .cksRead s (s.addResponse [0x00#8, s.cksAcc]) [0x00#8, s.cksAcc] := ⟨rfl, rfl, rfl, rfl⟩

theorem responds_encFrame (h : body.length ≤ 65534) : Responds (.encFrame id body) s
    (s.addResponse (0x00#8 :: frameOf (id :: body))) (0x00#8 :: frameOf (id :: body)) :=
  responds_of_respond (if_neg (Nat.not_lt.mpr h)) rfl rfl rfl

theorem responds_encFrame_badLen (h : 65534 < body.length) :
    Responds (.encFrame id body) s (s.addResponse [0x02#8]) [0x02#8] :=
  responds_of_raiseError (e := .badLen) (if_pos h)

theorem responds_decTake (h : s.dec.dstate = .complete) : Responds .decTake s
    ((s.setDec (drain (startScan (clearCandidate s.dec))).dec).addResponse
      (0x00#8 :: (heldFrameFields s.dec ++ beBytes 4 (drain (startScan (clearCandidate s.dec))).ninv ++
        [doneFlags (drain (startScan (clearCandidate s.dec))).dec])))
    (0x00#8 :: (heldFrameFields s.dec ++ beBytes 4 (drain (startScan (clearCandidate s.dec))).ninv ++
      [doneFlags (drain (startScan (clearCandidate s.dec))).dec])) :=
  responds_of_respond (if_pos h) rfl rfl rfl

theorem responds_decTake_noFrame (h : s.dec.dstate ≠ .complete) :
    Responds .decTake s (s.addResponse [0x04#8]) [0x04#8] :=
  responds_of_raiseError (e := .noFrame) (if_neg h)

theorem responds_decStatus : Responds .decStatus s (s.addResponse (0x00#8 :: statusFields s.dec))
    (0x00#8 :: statusFields s.dec) := ⟨rfl, rfl, rfl, rfl⟩

theorem responds_decFlush : Responds .decFlush s
    ((s.setDec { clearCandidate s.dec with replay := [] }).addResponse [0x00#8]) [0x00#8] := ⟨rfl, rfl, rfl, rfl⟩

theorem responds_gtcDecode (h : 29 ≤ p.length) : Responds (.gtcDecode p) s
    (s.addResponse (0x00#8 :: timeRecordBytes (gdecode p))) (0x00#8 :: timeRecordBytes (gdecode p)) :=
  responds_of_respond (if_neg (Nat.not_lt.mpr h)) rfl rfl rfl

theorem responds_gtcDecode_truncated (h : p.length < 29) :
    Responds (.gtcDecode p) s (s.addResponse [0x03#8]) [0x03#8] :=
  responds_of_raiseError (e := .truncated) (if_pos h)

theorem responds_gtcEpoch : Responds (.gtcEpoch t) s (s.addResponse (0x00#8 :: epochFields (gepoch t)))
    (0x00#8 :: epochFields (gepoch t)) := ⟨rfl, rfl, rfl, rfl⟩

theorem responds_gtcConvert (h : 29 ≤ p.length) : Responds (.gtcConvert p) s
    (s.addResponse (0x00#8 :: (timeRecordBytes (gdecode p) ++ epochFields (gepoch (gdecode p)))))
    (0x00#8 :: (timeRecordBytes (gdecode p) ++ epochFields (gepoch (gdecode p)))) :=
  responds_of_respond (if_neg (Nat.not_lt.mpr h)) rfl rfl rfl

theorem responds_gtcConvert_truncated (h : p.length < 29) :
    Responds (.gtcConvert p) s (s.addResponse [0x03#8]) [0x03#8] :=
  responds_of_raiseError (e := .truncated) (if_pos h)

theorem responds_illegal : Responds (.illegal op) s (s.addResponse [0x01#8]) [0x01#8] := ⟨rfl, rfl, rfl, rfl⟩

end Commands

end Sys2Proof.Machine
end

