-- ==== Sys2Proof/Laws/Scan.lean ====
section
/-! SUPPORT. The scanner: what one scanning step can do, what every step leaves alone, that draining ends (R177) and is the while
loop of R171, and what the loop of DEC_PUSH does. -/

namespace Sys2Proof.Machine

section Fields
variable (c : Scan) (b : Byte) (d : DState) (r : Bytes) (e : Decoder)

@[simp] theorem startScan_dec : (startScan e).dec = e := rfl
@[simp] theorem startScan_ninv : (startScan e).ninv = 0 := rfl

@[simp] theorem setReplay_dstate : (setReplay c r).dec.dstate = c.dec.dstate := rfl
@[simp] theorem setReplay_dlen : (setReplay c r).dec.dlen = c.dec.dlen := rfl
@[simp] theorem setReplay_dcnt : (setReplay c r).dec.dcnt = c.dec.dcnt := rfl
@[simp] theorem setReplay_dcs : (setReplay c r).dec.dcs = c.dec.dcs := rfl
@[simp] theorem setReplay_cap : (setReplay c r).dec.cap = c.dec.cap := rfl
@[simp] theorem setReplay_replay : (setReplay c r).dec.replay = r := rfl
@[simp] theorem setReplay_invCnt : (setReplay c r).dec.invCnt = c.dec.invCnt := rfl
@[simp] theorem setReplay_frmCnt : (setReplay c r).dec.frmCnt = c.dec.frmCnt := rfl
@[simp] theorem setReplay_ninv : (setReplay c r).ninv = c.ninv := rfl

@[simp] theorem invalid_dstate : (invalid c).dec.dstate = .seekStart1 := rfl
@[simp] theorem invalid_cap : (invalid c).dec.cap = [] := rfl
@[simp] theorem invalid_replay : (invalid c).dec.replay = c.dec.cap.drop 1 ++ c.dec.replay := rfl
@[simp] theorem invalid_invCnt : (invalid c).dec.invCnt = c.dec.invCnt + 1 := rfl
@[simp] theorem invalid_frmCnt : (invalid c).dec.frmCnt = c.dec.frmCnt := rfl
@[simp] theorem invalid_ninv : (invalid c).ninv = c.ninv + 1 := rfl

end Fields

section Unfolding
variable {c : Scan} (b : Byte)

theorem dstep_seekStart1 (h : c.dec.dstate = .seekStart1) : dstep c b = dstepSeekStart1 c b := by simp [dstep, h]
theorem dstep_seekStart2 (h : c.dec.dstate = .seekStart2) : dstep c b = dstepSeekStart2 c b := by simp [dstep, h]
theorem dstep_readLengthHi (h : c.dec.dstate = .readLengthHi) : dstep c b = dstepReadLengthHi c b := by simp [dstep, h]
theorem dstep_readLengthLo (h : c.dec.dstate = .readLengthLo) : dstep c b = dstepReadLengthLo c b := by simp [dstep, h]
theorem dstep_readPayload (h : c.dec.dstate = .readPayload) : dstep c b = dstepReadPayload c b := by simp [dstep, h]
theorem dstep_readChecksum (h : c.dec.dstate = .readChecksum) : dstep c b = dstepReadChecksum c b := by simp [dstep, h]
theorem dstep_readEnd1 (h : c.dec.dstate = .readEnd1) : dstep c b = dstepReadEnd1 c b := by simp [dstep, h]
theorem dstep_readEnd2 (h : c.dec.dstate = .readEnd2) : dstep c b = dstepReadEnd2 c b := by simp [dstep, h]
theorem dstep_complete (h : c.dec.dstate = .complete) : dstep c b = c := by simp [dstep, h]

end Unfolding

/-- Everything one scanning step can do (R161 to R169): discard the byte, begin a new candidate with it, drop the candidate without an
Invalid event, capture the byte with no event, raise an Invalid event at it, or complete the frame with it. -/
theorem dstep_cases (c : Scan) (b : Byte) (h : c.dec.dstate ≠ .complete) :
    dstep c b = c ∨
    dstep c b = { c with dec := { c.dec with cap := [start1], dstate := .seekStart2 } } ∨
    dstep c b = { c with dec := clearCandidate c.dec } ∨
    (∃ d dlen dcnt dcs, d ≠ .complete ∧ d ≠ .seekStart1 ∧
      dstep c b = { c with dec := { c.dec with cap := c.dec.cap ++ [b], dstate := d, dlen := dlen, dcnt := dcnt, dcs := dcs } }) ∨
    dstep c b = invalid (capture c b) ∨
    dstep c b = complete (capture c b) := by
  rcases hd : c.dec.dstate
  case complete => exact absurd hd h
  case seekStart1 =>
    rw [dstep_seekStart1 b hd, dstepSeekStart1]
    split
    · exact .inr (.inl rfl)
    · exact .inl rfl
  case seekStart2 =>
    rw [dstep_seekStart2 b hd, dstepSeekStart2]
    split
    · exact .inr (.inr (.inr (.inl ⟨.readLengthHi, _, _, _, by decide, by decide, rfl⟩)))
    · split
      · exact .inr (.inl (by rw [← hd]))
      · exact .inr (.inr (.inl rfl))
  case readLengthHi =>
    rw [dstep_readLengthHi b hd]
    exact .inr (.inr (.inr (.inl ⟨.readLengthLo, _, _, _, by decide, by decide, rfl⟩)))
  case readLengthLo =>
    rw [dstep_readLengthLo b hd]
    simp only [dstepReadLengthLo]
    split
    · exact .inr (.inr (.inr (.inl ⟨.readChecksum, _, _, _, by decide, by decide, rfl⟩)))
    · exact .inr (.inr (.inr (.inl ⟨.readPayload, _, _, _, by decide, by decide, rfl⟩)))
  case readPayload =>
    rw [dstep_readPayload b hd]
    simp only [dstepReadPayload]
    split
    · exact .inr (.inr (.inr (.inl ⟨.readChecksum, _, _, _, by decide, by decide, rfl⟩)))
    · refine .inr (.inr (.inr (.inl ⟨.readPayload, c.dec.dlen, c.dec.dcnt + 1, c.dec.dcs ^^^ b, by decide, by decide, ?_⟩)))
      simp [capture, ← hd]
  case readChecksum =>
    rw [dstep_readChecksum b hd, dstepReadChecksum]
    split
    · exact .inr (.inr (.inr (.inl ⟨.readEnd1, _, _, _, by decide, by decide, rfl⟩)))
    · exact .inr (.inr (.inr (.inr (.inl rfl))))
  case readEnd1 =>
    rw [dstep_readEnd1 b hd, dstepReadEnd1]
    split
    · exact .inr (.inr (.inr (.inl ⟨.readEnd2, _, _, _, by decide, by decide, rfl⟩)))
    · exact .inr (.inr (.inr (.inr (.inl rfl))))
  case readEnd2 =>
    rw [dstep_readEnd2 b hd, dstepReadEnd2]
    split
    · exact .inr (.inr (.inr (.inr (.inr rfl))))
    · exact .inr (.inr (.inr (.inr (.inl rfl))))

/-- A scanning step raises `|CAP| + |REPLAY|` by at most one, and by one only if it leaves `REPLAY` as it is (R28, R177). -/
theorem dstep_size (c : Scan) (b : Byte) (h : c.dec.dstate ≠ .complete) :
    (dstep c b).dec.cap.length + (dstep c b).dec.replay.length ≤ c.dec.cap.length + c.dec.replay.length ∨
    ((dstep c b).dec.cap.length + (dstep c b).dec.replay.length = c.dec.cap.length + c.dec.replay.length + 1 ∧
      (dstep c b).dec.replay = c.dec.replay) := by
  rcases dstep_cases c b h with e | e | e | ⟨_, _, _, _, _, _, e⟩ | e | e <;> rw [e]
  · exact .inl le_rfl
  · by_cases hc : c.dec.cap = []
    · right; simp [hc]; omega
    · left
      have := List.length_pos_iff.mpr hc
      simp only [List.length_cons, List.length_nil]; omega
  · left; simp
  · right; simp; omega
  · left; simp [capture]
  · right; simp [capture, complete]; omega

/-! ### Draining -/

/-- Draining is over: the queue is empty or a frame is complete (R32, R171). -/
abbrev Drained (c : Scan) : Prop := c.dec.replay = [] ∨ c.dec.dstate = .complete

/-- A measure every scanning step of a REPLAY byte lowers, from the lexicographic one of R177. -/
def drainMeasure (d : Decoder) : Nat :=
  (d.cap.length + d.replay.length) * (d.cap.length + d.replay.length + 1) + 2 * d.replay.length

/-- Scanning a REPLAY byte lowers the measure (R177). -/
theorem drainMeasure_dstep {c : Scan} {b : Byte} {rest : Bytes} (h : c.dec.dstate ≠ .complete)
    (hr : c.dec.replay = b :: rest) : drainMeasure (dstep (setReplay c rest) b).dec + 2 ≤ drainMeasure c.dec := by
  have hs := dstep_size (setReplay c rest) b (by simpa using h)
  simp only [setReplay_cap, setReplay_replay] at hs
  simp only [drainMeasure, hr, List.length_cons]
  generalize (dstep (setReplay c rest) b).dec = d at *
  rcases hs with hs | ⟨hs, hq⟩
  · have h1 : d.replay.length ≤ c.dec.cap.length + rest.length := by omega
    nlinarith
  · rw [hq] at hs ⊢
    have : d.cap.length + rest.length = c.dec.cap.length + (rest.length + 1) := by omega
    rw [this]
    omega

/-- Enough fuel drains. -/
theorem drainFuel_drained (fuel : Nat) : ∀ c : Scan, drainMeasure c.dec ≤ 2 * fuel → Drained (drainFuel fuel c) := by
  induction fuel with
  | zero =>
    intro c h
    left
    have : c.dec.replay.length = 0 := by simp only [drainMeasure] at h; omega
    simpa [drainFuel] using this
  | succ fuel ih =>
    intro c h
    rcases hr : c.dec.replay with _ | ⟨b, rest⟩
    · simp [drainFuel, hr, Drained]
    · by_cases hd : c.dec.dstate = .complete
      · simp [drainFuel, hr, hd, Drained]
      · simp only [drainFuel, hr, hd, if_false]
        exact ih _ (by have := drainMeasure_dstep hd hr; omega)

/-- More fuel than enough changes nothing. -/
theorem drainFuel_add (fuel : Nat) : ∀ (c : Scan) (k : Nat), Drained (drainFuel fuel c) →
    drainFuel (fuel + k) c = drainFuel fuel c := by
  induction fuel with
  | zero =>
    intro c k h
    rcases k with _ | k
    · rfl
    · rcases h with h | h <;> simp only [drainFuel] at h
      · simp [drainFuel, h]
      · rcases hr : c.dec.replay with _ | ⟨b, rest⟩ <;> simp [drainFuel, hr, h]
  | succ fuel ih =>
    intro c k h
    rw [Nat.succ_add]
    rcases hr : c.dec.replay with _ | ⟨b, rest⟩
    · simp [drainFuel, hr]
    · by_cases hd : c.dec.dstate = .complete
      · simp [drainFuel, hr, hd]
      · simp only [drainFuel, hr, hd, if_false] at h ⊢
        exact ih _ k h

/-- The bound of R177 is enough. -/
theorem drainMeasure_le (d : Decoder) : drainMeasure d ≤ 2 * drainBound d := by
  simp only [drainMeasure, drainBound]
  generalize hn : d.cap.length + d.replay.length = n
  have : d.replay.length ≤ n := by omega
  rcases n with _ | n
  · have : d.replay.length = 0 := by omega
    simp [this]
  · nlinarith

/-- `drain()` ends with the queue empty or a frame complete (R171). -/
theorem drain_drained (c : Scan) : Drained (drain c) := drainFuel_drained _ c (drainMeasure_le c.dec)

/-- Any two amounts of fuel that drain give the same. -/
theorem drainFuel_unique {m n : Nat} {c : Scan} (hm : Drained (drainFuel m c)) (hn : Drained (drainFuel n c)) :
    drainFuel m c = drainFuel n c := by
  rcases Nat.le_total m n with h | h <;> obtain ⟨k, rfl⟩ := Nat.exists_eq_add_of_le h
  · exact (drainFuel_add m c k hm).symm
  · exact drainFuel_add n c k hn

/-- Nothing to drain. -/
theorem drain_of_drained {c : Scan} (h : Drained c) : drain c = c := by
  simp only [drain]
  rcases drainBound c.dec with _ | n
  · rfl
  · rcases hr : c.dec.replay with _ | ⟨b, rest⟩
    · simp [drainFuel, hr]
    · have hd : c.dec.dstate = .complete := by simpa [Drained, hr] using h
      simp [drainFuel, hr, hd]

/-- One round of the loop of R171. -/
theorem drain_of_replay {c : Scan} {b : Byte} {rest : Bytes} (h : c.dec.dstate ≠ .complete) (hr : c.dec.replay = b :: rest) :
    drain c = drain (dstep (setReplay c rest) b) := by
  have hc := drain_drained c
  have hc' := drain_drained (dstep (setReplay c rest) b)
  simp only [drain] at hc hc' ⊢
  obtain ⟨n, hn⟩ : ∃ n, drainBound c.dec = n + 1 := by
    refine Nat.exists_eq_succ_of_ne_zero ?_
    simp [drainBound, hr]
  rw [hn] at hc ⊢
  simp only [drainFuel, hr, h, if_false] at hc ⊢
  exact drainFuel_unique hc hc'

/-- `drain()` is the while loop of R171: the bound on scanning steps is never what ends it (R177; log entry 6). -/
theorem drain_eq (c : Scan) :
    drain c =
      match c.dec.replay with
      | [] => c
      | b :: rest => if c.dec.dstate = .complete then c else drain (dstep (setReplay c rest) b) := by
  rcases hr : c.dec.replay with _ | ⟨b, rest⟩
  · exact drain_of_drained (.inl hr)
  · by_cases hd : c.dec.dstate = .complete
    · simp [hd, drain_of_drained (.inr hd)]
    · simp [hd, drain_of_replay hd hr]

/-- What every scanning step of a REPLAY byte keeps, draining keeps. -/
theorem drain_induction {P : Scan → Prop}
    (step : ∀ (c : Scan) (b : Byte) (rest : Bytes), c.dec.dstate ≠ .complete → c.dec.replay = b :: rest → P c →
      P (dstep (setReplay c rest) b))
    (c : Scan) (h : P c) : P (drain c) := by
  have fuel : ∀ (n : Nat) (c : Scan), P c → P (drainFuel n c) := by
    intro n
    induction n with
    | zero => exact fun _ h => h
    | succ n ih =>
      intro c h
      rcases hr : c.dec.replay with _ | ⟨b, rest⟩
      · simpa [drainFuel, hr] using h
      · by_cases hd : c.dec.dstate = .complete
        · simpa [drainFuel, hr, hd] using h
        · simp only [drainFuel, hr, hd, if_false]
          exact ih _ (step c b rest hd hr h)
  exact fuel _ c h

/-! ### The loop of DEC_PUSH -/

@[simp] theorem scanBytes_nil (c : Scan) : scanBytes c [] = (c, 0) := rfl

/-- Complete consumes no byte (R170). -/
theorem scanBytes_complete {c : Scan} (h : c.dec.dstate = .complete) (data : Bytes) : scanBytes c data = (c, 0) := by
  cases data <;> simp [scanBytes, h]

theorem scanBytes_cons {c : Scan} (h : c.dec.dstate ≠ .complete) (b : Byte) (rest : Bytes) :
    scanBytes c (b :: rest) =
      ((scanBytes (drain (dstep c b)) rest).1, (scanBytes (drain (dstep c b)) rest).2 + 1) := by
  simp [scanBytes, h]

/-- What scanning and draining one byte keeps, the loop keeps. -/
theorem scanBytes_induction {P : Scan → Prop}
    (step : ∀ (c : Scan) (b : Byte), c.dec.dstate ≠ .complete → P c → P (drain (dstep c b)))
    (data : Bytes) : ∀ c : Scan, P c → P (scanBytes c data).1 := by
  induction data with
  | nil => exact fun _ h => h
  | cons b rest ih =>
    intro c h
    by_cases hd : c.dec.dstate = .complete
    · rwa [scanBytes_complete hd]
    · rw [scanBytes_cons hd]
      exact ih _ (step c b hd h)

/-- At most all the data is consumed; less only if a frame is complete (R172). -/
theorem scanBytes_accepted (data : Bytes) : ∀ c : Scan, (scanBytes c data).2 ≤ data.length ∧
    ((scanBytes c data).2 < data.length → (scanBytes c data).1.dec.dstate = .complete) := by
  induction data with
  | nil => simp
  | cons b rest ih =>
    intro c
    by_cases hd : c.dec.dstate = .complete
    · simp [scanBytes_complete hd, hd]
    · rw [scanBytes_cons hd]
      have := ih (drain (dstep c b))
      simp only [List.length_cons, Nat.add_le_add_iff_right, Nat.add_lt_add_iff_right]
      exact this

/-- Scanning two chunks one after the other, when the first is accepted whole (R176). -/
theorem scanBytes_append (data more : Bytes) : ∀ c : Scan, (scanBytes c data).2 = data.length →
    scanBytes c (data ++ more) =
      ((scanBytes (scanBytes c data).1 more).1, data.length + (scanBytes (scanBytes c data).1 more).2) := by
  induction data with
  | nil => simp
  | cons b rest ih =>
    intro c h
    by_cases hd : c.dec.dstate = .complete
    · simp [scanBytes_complete hd] at h
    · rw [scanBytes_cons hd] at h ⊢
      have h' : (scanBytes (drain (dstep c b)) rest).2 = rest.length := by simpa using h
      rw [List.cons_append, scanBytes_cons hd, ih _ h']
      simp only [List.length_cons, Prod.mk.injEq, true_and]
      omega

end Sys2Proof.Machine
end

