-- ==== Sys2Proof/Laws/Invariant.lean ====
section
/-! SUPPORT. The decoder invariant of R24 to R27 and R31 in one form per state, which says what `CAP` looks like, and that a scanning
step keeps it. -/

namespace Sys2Proof.Machine

/-- The bytes of a candidate with payload bytes `p` and trailer bytes `tr` (R27, R70). -/
def candidate (hi lo : Byte) (p tr : Bytes) : Bytes := start1 :: start2 :: hi :: lo :: (p ++ tr)

/-- A candidate whose whole payload `p` has been read and whose trailer so far is `tr`. -/
def PayloadRead (d : Decoder) (tr : Bytes) : Prop :=
  ∃ hi lo p, d.cap = candidate hi lo p tr ∧ d.dlen.toNat = be [hi, lo] ∧ p.length = d.dlen.toNat ∧ d.dcnt = d.dlen ∧ d.dcs = cks p

/-- What the decoder's elements are in each state. -/
def CandidateShape (d : Decoder) : Prop :=
  match d.dstate with
  | .seekStart1 => d.cap = [] ∧ d.dlen = 0 ∧ d.dcnt = 0 ∧ d.dcs = 0
  | .seekStart2 => d.cap = [start1] ∧ d.dlen = 0 ∧ d.dcnt = 0 ∧ d.dcs = 0
  | .readLengthHi => d.cap = [start1, start2] ∧ d.dlen = 0 ∧ d.dcnt = 0 ∧ d.dcs = 0
  | .readLengthLo => ∃ hi, d.cap = [start1, start2, hi] ∧ d.dlen.toNat = hi.toNat * 256 ∧ d.dcnt = 0 ∧ d.dcs = 0
  | .readPayload =>
    ∃ hi lo p, d.cap = candidate hi lo p [] ∧ d.dlen.toNat = be [hi, lo] ∧ d.dcnt.toNat = p.length ∧
      p.length < d.dlen.toNat ∧ d.dcs = cks p
  | .readChecksum => PayloadRead d []
  | .readEnd1 => PayloadRead d [d.dcs]
  | .readEnd2 => PayloadRead d [d.dcs, end1]
  | .complete => PayloadRead d [d.dcs, end1, end2]

theorem slice_candidate_payload (hi lo : Byte) (p tr : Bytes) : slice (candidate hi lo p tr) 4 (4 + p.length) = p := by
  simp [slice, candidate]

theorem slice_candidate_length (hi lo : Byte) (p tr : Bytes) : slice (candidate hi lo p tr) 2 4 = [hi, lo] := by
  simp [slice, candidate]

theorem slice_candidate_trailer (hi lo : Byte) (p tr : Bytes) (i n : Nat) :
    slice (candidate hi lo p tr) (4 + i + p.length) (4 + i + p.length + n) = slice tr i (i + n) := by
  have : 4 + i + p.length = p.length + i + 4 := by omega
  rw [this]
  simp [slice, candidate, ← List.drop_drop]

/-- A sequence that is long enough splits into a header, a payload and a trailer. -/
theorem exists_candidate {cap : Bytes} {n m : Nat} (h : cap.length = 4 + n + m) (h1 : slice cap 0 1 = [start1])
    (h2 : slice cap 1 2 = [start2]) : ∃ hi lo p tr, cap = candidate hi lo p tr ∧ p.length = n ∧ tr.length = m := by
  rcases cap with _ | ⟨a, _ | ⟨b, _ | ⟨hi, _ | ⟨lo, tl⟩⟩⟩⟩ <;> simp at h <;> try omega
  simp [slice] at h1 h2
  refine ⟨hi, lo, tl.take n, tl.drop n, ?_, ?_, ?_⟩
  · simp [candidate, h1, h2]
  · simp; omega
  · simp; omega

/-- What R24 to R27 and R31 say of a candidate whose payload has been read. -/
theorem payloadRead_split {d : Decoder} {m : Nat} (hl : d.cap.length = 4 + d.dlen.toNat + m)
    (hdl : d.dlen.toNat = be (slice d.cap 2 4)) (hdc : d.dcnt = d.dlen) (hcs : d.dcs = cks (slice d.cap 4 (4 + d.dcnt.toNat)))
    (h1 : slice d.cap 0 1 = [start1]) (h2 : slice d.cap 1 2 = [start2]) :
    ∃ tr, PayloadRead d tr ∧ tr.length = m ∧
      ∀ i n, slice d.cap (4 + i + d.dlen.toNat) (4 + i + d.dlen.toNat + n) = slice tr i (i + n) := by
  obtain ⟨hi, lo, p, tr, hc, hp, ht⟩ := exists_candidate hl h1 h2
  rw [hc, slice_candidate_length] at hdl
  rw [hc, hdc, ← hp, slice_candidate_payload] at hcs
  exact ⟨tr, ⟨hi, lo, p, hc, hdl, hp, hdc, hcs⟩, ht, fun i n => by rw [hc, ← hp]; exact slice_candidate_trailer ..⟩

/-- R24 to R27 and R31 give the shape of the candidate in each state. -/
theorem candidateShape_of_inv {d : Decoder} (h : CandidateInv d) : CandidateShape d := by
  obtain ⟨hdl, ⟨hc1, hc2, hc3⟩, ⟨hs1, hs2⟩, hl, hp1, hp2, hp3, hp4, hp5⟩ := h
  obtain ⟨ds, dlen, dcnt, dcs, cap, rp, ic, fc⟩ := d
  simp only [DlenInv, CapLengthInv] at *
  cases ds <;> simp only [dlenByState, capLengthByState, beforePayload, reduceCtorEq, or_false, or_true,
    forall_const, IsEmpty.forall_iff] at *
  case seekStart1 => exact ⟨by simpa using hl, BitVec.eq_of_toNat_eq hdl, hc1, hs2⟩
  case seekStart2 =>
    refine ⟨?_, BitVec.eq_of_toNat_eq hdl, hc1, hs2⟩
    rcases cap with _ | ⟨a, _ | ⟨b, tl⟩⟩ <;> simp_all [slice]
  case readLengthHi =>
    refine ⟨?_, BitVec.eq_of_toNat_eq hdl, hc1, hs2⟩
    rcases cap with _ | ⟨a, _ | ⟨b, _ | ⟨_, tl⟩⟩⟩ <;> simp_all [slice]
  case readLengthLo =>
    rcases cap with _ | ⟨a, _ | ⟨b, _ | ⟨hi, _ | ⟨_, tl⟩⟩⟩⟩ <;> simp_all [slice, CandidateShape, be]
  case readPayload =>
    obtain ⟨hi, lo, p, tr, hc, hp, ht⟩ := exists_candidate (m := 0) hl (hp1 (by omega)) (hp2 (by omega))
    obtain rfl : tr = [] := by simpa using ht
    rw [hc, slice_candidate_length] at hdl
    rw [hc, ← hp, slice_candidate_payload] at hs1
    exact ⟨hi, lo, p, hc, hdl, hp.symm, by simpa [hp] using hc2, hs1⟩
  all_goals
    obtain ⟨tr, hpr, ht, htr⟩ := payloadRead_split (m := cap.length - (4 + dlen.toNat))
      (d := ⟨.complete, dlen, dcnt, dcs, cap, rp, ic, fc⟩) (by simp only; omega) hdl hc3 hs1 (hp1 (by omega)) (hp2 (by omega))
    have t0 := htr 0 1
    have t1 := htr 1 1
    have t2 := htr 2 1
    have e0 : 4 + 0 + dlen.toNat + 1 = 5 + dlen.toNat := by omega
    have e1 : 4 + 1 + dlen.toNat + 1 = 6 + dlen.toNat := by omega
    have e2 : 4 + 2 + dlen.toNat + 1 = 7 + dlen.toNat := by omega
    simp only [e0, e1, e2, Nat.add_zero, Nat.reduceAdd, hl] at t0 t1 t2 ht
    simp only [CandidateShape]
  case readChecksum =>
    obtain rfl : tr = [] := List.length_eq_zero_iff.mp (by omega)
    exact hpr
  case readEnd1 =>
    match tr, (by omega : tr.length = 1) with
    | [a], _ =>
      have ha : [dcs] = [a] := hp3.symm.trans t0
      rwa [ha]
  case readEnd2 =>
    match tr, (by omega : tr.length = 2) with
    | [a, b], _ =>
      have ha : [dcs] = [a] := hp3.symm.trans t0
      have hb : [end1] = [b] := hp4.symm.trans t1
      simp only [List.cons.injEq, and_true] at ha hb
      subst ha hb
      exact hpr
  case complete =>
    match tr, (by omega : tr.length = 3) with
    | [a, b, c], _ =>
      have ha : [dcs] = [a] := hp3.symm.trans t0
      have hb : [end1] = [b] := hp4.symm.trans t1
      have hc : [end2] = [c] := hp5.symm.trans t2
      simp only [List.cons.injEq, and_true] at ha hb hc
      subst ha hb hc
      exact hpr

/-- What `PayloadRead` says in the words of R24 to R27 and R31. -/
theorem payloadRead_facts {d : Decoder} {tr : Bytes} (h : PayloadRead d tr) :
    d.dlen.toNat = be (slice d.cap 2 4) ∧ d.dcnt = d.dlen ∧ d.dcs = cks (slice d.cap 4 (4 + d.dcnt.toNat)) ∧
      d.cap.length = 4 + d.dlen.toNat + tr.length ∧ slice d.cap 0 1 = [start1] ∧ slice d.cap 1 2 = [start2] ∧
      ∀ i n, slice d.cap (4 + i + d.dlen.toNat) (4 + i + d.dlen.toNat + n) = slice tr i (i + n) := by
  obtain ⟨hi, lo, p, hc, hdl, hp, hdc, hcs⟩ := h
  refine ⟨?_, hdc, ?_, ?_, ?_, ?_, ?_⟩
  · rw [hc, slice_candidate_length, hdl]
  · rw [hc, hdc, ← hp, slice_candidate_payload, hcs]
  · rw [hc, ← hp]; simp [candidate]; omega
  · simp [hc, candidate, slice]
  · simp [hc, candidate, slice]
  · intro i n; rw [hc, ← hp]; exact slice_candidate_trailer ..

/-- The shape of the candidate in each state gives R24 to R27 and R31. -/
theorem candidateInv_of_shape {d : Decoder} (h : CandidateShape d) : CandidateInv d := by
  obtain ⟨ds, dlen, dcnt, dcs, cap, rp, ic, fc⟩ := d
  cases ds <;> simp only [CandidateShape] at h
  case seekStart1 => obtain ⟨rfl, rfl, rfl, rfl⟩ := h; simp [CandidateInv, DlenInv, DcntInv, DcsInv, CapLengthInv, CapPrefixInv, dlenByState, capLengthByState, beforePayload, slice]
  case seekStart2 => obtain ⟨rfl, rfl, rfl, rfl⟩ := h; simp [CandidateInv, DlenInv, DcntInv, DcsInv, CapLengthInv, CapPrefixInv, dlenByState, capLengthByState, beforePayload, slice]
  case readLengthHi => obtain ⟨rfl, rfl, rfl, rfl⟩ := h; simp [CandidateInv, DlenInv, DcntInv, DcsInv, CapLengthInv, CapPrefixInv, dlenByState, capLengthByState, beforePayload, slice]
  case readLengthLo =>
    obtain ⟨hi, rfl, hdl, rfl, rfl⟩ := h
    simp_all [CandidateInv, DlenInv, DcntInv, DcsInv, CapLengthInv, CapPrefixInv, dlenByState, capLengthByState, beforePayload,
      slice, be]
  case readPayload =>
    obtain ⟨hi, lo, p, rfl, hdl, hdc, hlt, rfl⟩ := h
    have h2 := slice_candidate_length hi lo p []
    have h4 := slice_candidate_payload hi lo p []
    refine ⟨?_, ⟨by simp [beforePayload], fun _ => by simpa [hdc] using hlt, by simp⟩, ⟨?_, by simp [beforePayload]⟩, ?_, ?_⟩
    · simp only [DlenInv, dlenByState, h2, hdl]
    · simp only [hdc, h4]
    · simp [CapLengthInv, capLengthByState, candidate, hdc]; omega
    · simp [CapPrefixInv, slice, candidate]
  all_goals
    obtain ⟨f1, f2, f3, f4, f5, f6, f7⟩ := payloadRead_facts h
    simp only at f1 f2 f3 f4 f5 f6 f7
    have t0 := f7 0 1
    have t1 := f7 1 1
    have t2 := f7 2 1
    have e0 : 4 + 0 + dlen.toNat + 1 = 5 + dlen.toNat := by omega
    have e1 : 4 + 1 + dlen.toNat + 1 = 6 + dlen.toNat := by omega
    have e2 : 4 + 2 + dlen.toNat + 1 = 7 + dlen.toNat := by omega
    simp only [e0, e1, e2, Nat.add_zero, Nat.reduceAdd] at t0 t1 t2
    refine ⟨f1, ⟨by simp [beforePayload], by simp, fun _ => f2⟩, ⟨f3, by simp [beforePayload]⟩, ?_, fun _ => f5, fun _ => f6, ?_⟩
    · simp only [CapLengthInv, capLengthByState, f4, List.length_cons, List.length_nil]; omega
    · simp_all [slice]

/-- The invariant in its two forms. -/
theorem candidateInv_iff_shape {d : Decoder} : CandidateInv d ↔ CandidateShape d :=
  ⟨candidateShape_of_inv, candidateInv_of_shape⟩

/-- A scanning step keeps the decoder invariant (R31). -/
theorem dstep_shape {c : Scan} (b : Byte) (h : c.dec.dstate ≠ .complete) (hs : CandidateShape c.dec) :
    CandidateShape (dstep c b).dec := by
  obtain ⟨⟨ds, dlen, dcnt, dcs, cap, rp, ic, fc⟩, ninv⟩ := c
  cases ds <;> simp only [CandidateShape] at hs
  case complete => exact absurd rfl h
  case seekStart1 =>
    obtain ⟨rfl, rfl, rfl, rfl⟩ := hs
    rw [dstep_seekStart1 b rfl, dstepSeekStart1]
    split <;> simp [CandidateShape]
  case seekStart2 =>
    obtain ⟨rfl, rfl, rfl, rfl⟩ := hs
    rw [dstep_seekStart2 b rfl, dstepSeekStart2]
    split
    · simp_all [CandidateShape, goto, capture]
    · split <;> simp [CandidateShape]
  case readLengthHi =>
    obtain ⟨rfl, rfl, rfl, rfl⟩ := hs
    rw [dstep_readLengthHi b rfl]
    have := b.isLt
    refine ⟨b, ?_⟩
    simp [goto, capture, dstepReadLengthHi]
    omega
  case readLengthLo =>
    obtain ⟨hi, rfl, hdl, rfl, rfl⟩ := hs
    have hb := b.isLt
    have hh := hi.isLt
    have hlen : (dlen + BitVec.ofNat 16 b.toNat).toNat = be [hi, b] := by
      rw [be_pair, BitVec.toNat_add, hdl, BitVec.toNat_ofNat]; omega
    rw [dstep_readLengthLo b rfl]
    simp only [dstepReadLengthLo]
    split
    · rename_i h0
      exact ⟨hi, b, [], by simp [goto, capture, candidate], hlen, (congrArg BitVec.toNat h0).symm, h0.symm, rfl⟩
    · rename_i h0
      refine ⟨hi, b, [], by simp [goto, capture, candidate], hlen, rfl, ?_, rfl⟩
      simp only [List.length_nil]
      refine Nat.pos_of_ne_zero fun hz => h0 ?_
      exact BitVec.eq_of_toNat_eq hz
  case readPayload =>
    obtain ⟨hi, lo, p, rfl, hdl, hdc, hlt, rfl⟩ := hs
    have hl := dlen.isLt
    have hcnt : (dcnt + 1).toNat = (p ++ [b]).length := by
      rw [BitVec.toNat_add, hdc, List.length_append]; simp; omega
    rw [dstep_readPayload b rfl]
    simp only [dstepReadPayload]
    split
    · rename_i he
      refine ⟨hi, lo, p ++ [b], by simp [goto, capture, candidate], hdl, ?_, he, by simp [goto, cks_append]⟩
      simp only [goto, capture]
      rw [← hcnt, he]
      rfl
    · rename_i he
      refine ⟨hi, lo, p ++ [b], by simp [capture, candidate], hdl, hcnt, ?_, by simp [cks_append]⟩
      have : (dcnt + 1).toNat ≠ dlen.toNat := fun hq => he (BitVec.eq_of_toNat_eq hq)
      rw [hcnt] at this
      simp only [capture, List.length_append, List.length_cons, List.length_nil] at this ⊢
      omega
  case readChecksum =>
    obtain ⟨hi, lo, p, rfl, hdl, hp, hdc, rfl⟩ := hs
    rw [dstep_readChecksum b rfl, dstepReadChecksum]
    split
    · rename_i he
      subst he
      exact ⟨hi, lo, p, by simp [goto, capture, candidate], hdl, hp, hdc, rfl⟩
    · simp [invalid, CandidateShape]
  case readEnd1 =>
    obtain ⟨hi, lo, p, rfl, hdl, hp, hdc, rfl⟩ := hs
    rw [dstep_readEnd1 b rfl, dstepReadEnd1]
    split
    · rename_i he
      subst he
      exact ⟨hi, lo, p, by simp [goto, capture, candidate], hdl, hp, hdc, rfl⟩
    · simp [invalid, CandidateShape]
  case readEnd2 =>
    obtain ⟨hi, lo, p, rfl, hdl, hp, hdc, rfl⟩ := hs
    rw [dstep_readEnd2 b rfl, dstepReadEnd2]
    split
    · rename_i he
      subst he
      exact ⟨hi, lo, p, by simp [complete, capture, candidate], hdl, hp, hdc, rfl⟩
    · simp [invalid, CandidateShape]
end Sys2Proof.Machine
end

