-- ==== Sys2Proof/Laws/PerInstr.lean ====
section
/-! SUPPORT. Statements made for every command, one lemma per constructor of Instr. -/

namespace Sys2Proof.Laws.EncodedLength

open Sys2Proof Sys2Proof.Machine

/-- R88, R92, R94: the encoding of a command has the length its opcode and its `n` field give it, wherever the `n` field is
0 to 65535. -/
def Statement (i : Instr) : Prop :=
  i.WellFormed = true → ∃ op rest, encode i = op :: rest ∧ (encode i).length = commandLengthOf (encode i)

/-- A command of one opcode byte. -/
theorem of_one {op : Byte} {o : Option Opcode} (h : opcodeOf op = o) (hl : ∀ n, commandLength o n = 1) :
    [op].length = commandLengthOf [op] := by
  simp only [commandLengthOf, List.cons_append, List.headD_cons, h, hl, List.length_cons, List.length_nil]

/-- A command whose `n` field stands at bytes 1 to 2. -/
theorem of_counted {op : Byte} {o : Opcode} {data : Bytes} (h : opcodeOf op = some o) (hf : Bytes.FitsCount data)
    (ho : o ≠ .encFrame) (hl : ∀ n, commandLength (some o) n = 3 + n) :
    (op :: encodeCounted data).length = commandLengthOf (op :: encodeCounted data) := by
  have hn : data.length < 256 ^ 2 := Nat.lt_succ_of_le hf
  have ho' : ¬ (some o = some Opcode.encFrame) := by simpa using ho
  have hs : slice (op :: encodeCounted data ++ List.replicate 4 0x00#8) 1 (1 + 2) = beBytes 2 data.length := by
    simp [slice, encodeCounted, beBytes]
  simp only [commandLengthOf, List.cons_append, List.headD_cons, h, hl, countOffset, if_neg ho', opRead]
  rw [List.cons_append] at hs
  rw [hs, be_beBytes, Nat.mod_eq_of_lt hn]
  simp only [encodeCounted, List.length_cons, List.length_append, beBytes_length]
  omega

theorem rst : Statement .rst := fun _ => ⟨_, _, rfl, of_one (o := some .rst) rfl fun _ => rfl⟩
theorem cksClr : Statement .cksClr := fun _ => ⟨_, _, rfl, of_one (o := some .cksClr) rfl fun _ => rfl⟩
theorem cksFeed (data : Bytes) : Statement (.cksFeed data) := fun h =>
  ⟨_, _, rfl, of_counted (o := .cksFeed) rfl (of_decide_eq_true h) (by decide) fun _ => rfl⟩
theorem cksRead : Statement .cksRead := fun _ => ⟨_, _, rfl, of_one (o := some .cksRead) rfl fun _ => rfl⟩
theorem encFrame (id : Byte) (body : Bytes) : Statement (.encFrame id body) := fun h => by
  have hf : Bytes.FitsCount body := of_decide_eq_true h
  have hn : body.length < 256 ^ 2 := Nat.lt_succ_of_le hf
  have ho : opcodeOf 0x20#8 = some .encFrame := rfl
  have hs : slice (0x20#8 :: id :: encodeCounted body ++ List.replicate 4 0x00#8) 2 (2 + 2) = beBytes 2 body.length := by
    simp [slice, encodeCounted, beBytes]
  refine ⟨_, _, rfl, ?_⟩
  show (0x20#8 :: id :: encodeCounted body).length = commandLengthOf (0x20#8 :: id :: encodeCounted body)
  simp only [commandLengthOf, List.cons_append, List.headD_cons, ho, commandLength, countOffset, if_true, opRead]
  rw [List.cons_append, List.cons_append] at hs
  rw [hs, be_beBytes, Nat.mod_eq_of_lt hn]
  simp only [encodeCounted, List.length_cons, List.length_append, beBytes_length]
  omega
theorem decPush (data : Bytes) : Statement (.decPush data) := fun h =>
  ⟨_, _, rfl, of_counted (o := .decPush) rfl (of_decide_eq_true h) (by decide) fun _ => rfl⟩
theorem decTake : Statement .decTake := fun _ => ⟨_, _, rfl, of_one (o := some .decTake) rfl fun _ => rfl⟩
theorem decStatus : Statement .decStatus := fun _ => ⟨_, _, rfl, of_one (o := some .decStatus) rfl fun _ => rfl⟩
theorem decFlush : Statement .decFlush := fun _ => ⟨_, _, rfl, of_one (o := some .decFlush) rfl fun _ => rfl⟩
theorem gtcDecode (p : Bytes) : Statement (.gtcDecode p) := fun h =>
  ⟨_, _, rfl, of_counted (o := .gtcDecode) rfl (of_decide_eq_true h) (by decide) fun _ => rfl⟩
theorem gtcEpoch (t : GpsTime) : Statement (.gtcEpoch t) := fun _ => by
  have ho : opcodeOf 0x41#8 = some .gtcEpoch := rfl
  refine ⟨_, _, rfl, ?_⟩
  show (0x41#8 :: timeRecordBytes t).length = commandLengthOf (0x41#8 :: timeRecordBytes t)
  simp only [commandLengthOf, List.cons_append, List.headD_cons, ho, commandLength]
  simp [timeRecordBytes]
theorem gtcConvert (p : Bytes) : Statement (.gtcConvert p) := fun h =>
  ⟨_, _, rfl, of_counted (o := .gtcConvert) rfl (of_decide_eq_true h) (by decide) fun _ => rfl⟩
theorem illegal (op : Byte) : Statement (.illegal op) := fun h =>
  ⟨_, _, rfl, of_one (o := none) (of_decide_eq_true h) fun _ => rfl⟩

end Sys2Proof.Laws.EncodedLength
end

