-- ==== Sys2Proof/Laws/Push.lean ====
section
/-! SUPPORT. What pushing bytes does: DEC_PUSH in the terms of `pushDecoder`, pushes in pieces (R176), and the Invalid count of a
command as an addition to the one it starts from. -/

namespace Sys2Proof.Machine

/-- FLAGS of DEC_PUSH and DEC_TAKE (R89). -/
theorem doneFlags_eq (d : Decoder) : doneFlags d = if d.dstate = .complete then 0x01#8 else 0x00#8 := by
  simp [doneFlags, flagsByte]

/-! ### The Invalid count of one command -/

/-- The same decoder with the command's Invalid count raised by `m`. -/
def addInvalid (c : Scan) (m : Nat) : Scan := { c with ninv := c.ninv + m }

@[simp] theorem addInvalid_dec (c : Scan) (m : Nat) : (addInvalid c m).dec = c.dec := rfl
@[simp] theorem addInvalid_ninv (c : Scan) (m : Nat) : (addInvalid c m).ninv = c.ninv + m := rfl

/-- Any scan is one that started afresh with a number of Invalid events added. -/
theorem eq_addInvalid (c : Scan) : c = addInvalid (startScan c.dec) c.ninv := by simp [addInvalid, startScan]

theorem invalid_addInvalid (c : Scan) (m : Nat) : invalid (addInvalid c m) = addInvalid (invalid c) m := by
  simp only [invalid, addInvalid, Nat.add_right_comm]

/-- A choice between two scans, each with the same Invalid events added. -/
theorem ite_addInvalid {p : Prop} [Decidable p] {x y x' y' : Scan} {m : Nat} (hx : x' = addInvalid x m)
    (hy : y' = addInvalid y m) : (if p then x' else y') = addInvalid (if p then x else y) m := by
  subst hx hy
  split <;> rfl

/-- A scanning step does not look at the Invalid count. -/
theorem dstep_addInvalid (c : Scan) (b : Byte) (m : Nat) : dstep (addInvalid c m) b = addInvalid (dstep c b) m := by
  rcases hd : c.dec.dstate
  case complete => rw [dstep_complete b hd, dstep_complete b (c := addInvalid c m) hd]
  case seekStart1 =>
    rw [dstep_seekStart1 b hd, dstep_seekStart1 b (c := addInvalid c m) hd]
    exact ite_addInvalid rfl rfl
  case seekStart2 =>
    rw [dstep_seekStart2 b hd, dstep_seekStart2 b (c := addInvalid c m) hd]
    exact ite_addInvalid rfl (ite_addInvalid rfl rfl)
  case readLengthHi =>
    rw [dstep_readLengthHi b hd, dstep_readLengthHi b (c := addInvalid c m) hd]
    rfl
  case readLengthLo =>
    rw [dstep_readLengthLo b hd, dstep_readLengthLo b (c := addInvalid c m) hd]
    exact ite_addInvalid rfl rfl
  case readPayload =>
    rw [dstep_readPayload b hd, dstep_readPayload b (c := addInvalid c m) hd]
    exact ite_addInvalid rfl rfl
  case readChecksum =>
    rw [dstep_readChecksum b hd, dstep_readChecksum b (c := addInvalid c m) hd]
    exact ite_addInvalid rfl (invalid_addInvalid (capture c b) m)
  case readEnd1 =>
    rw [dstep_readEnd1 b hd, dstep_readEnd1 b (c := addInvalid c m) hd]
    exact ite_addInvalid rfl (invalid_addInvalid (capture c b) m)
  case readEnd2 =>
    rw [dstep_readEnd2 b hd, dstep_readEnd2 b (c := addInvalid c m) hd]
    exact ite_addInvalid rfl (invalid_addInvalid (capture c b) m)

/-- Draining does not look at the Invalid count. -/
theorem drain_addInvalid (c : Scan) (m : Nat) : drain (addInvalid c m) = addInvalid (drain c) m := by
  have fuel : ∀ n c, drainFuel n (addInvalid c m) = addInvalid (drainFuel n c) m := by
    intro n
    induction n with
    | zero => intro c; rfl
    | succ n ih =>
      intro c
      rcases hr : c.dec.replay with _ | ⟨b, rest⟩
      · simp only [drainFuel, addInvalid_dec, hr]
      · simp only [drainFuel, addInvalid_dec, hr]
        refine ite_addInvalid rfl ?_
        rw [← ih, ← dstep_addInvalid]
        rfl
  exact fuel _ _

/-- The loop of DEC_PUSH does not look at the Invalid count. -/
theorem scanBytes_addInvalid (data : Bytes) (m : Nat) : ∀ c,
    scanBytes (addInvalid c m) data = (addInvalid (scanBytes c data).1 m, (scanBytes c data).2) := by
  induction data with
  | nil => intro c; rfl
  | cons b rest ih =>
    intro c
    simp only [scanBytes, addInvalid_dec, dstep_addInvalid, drain_addInvalid, ih]
    split <;> rfl

/-! ### Pushes -/

/-- What DEC_PUSH does. -/
theorem exec_decPush (data : Bytes) (s : State) :
    exec (.decPush data) s =
      .next { s with dec := pushDecoder s.dec data, responses := s.responses ++ [pushResponse s.dec data] } := by
  simp only [pushResponse, ← doneFlags_eq]
  rfl

/-- A push of two pieces is the push of the first and then of the second, when the first is accepted whole (R176). -/
theorem push_append (d : Decoder) (a b : Bytes) (h : pushAccepted d a = a.length) :
    pushDecoder d (a ++ b) = pushDecoder (pushDecoder d a) b ∧
    pushInv d (a ++ b) = pushInv d a + pushInv (pushDecoder d a) b ∧
    pushAccepted d (a ++ b) = a.length + pushAccepted (pushDecoder d a) b := by
  have h1 := scanBytes_append a b (startScan d) h
  rw [eq_addInvalid (scanBytes (startScan d) a).1, scanBytes_addInvalid] at h1
  simp only [pushDecoder, pushInv, pushAccepted]
  rw [h1]
  refine ⟨rfl, ?_, rfl⟩
  simp only [addInvalid_ninv]
  omega

/-- Any number of pieces (R176). -/
theorem pushes_append (ds : List Bytes) (last : Bytes) : ∀ d, AllAccepted d ds →
    pushDecoder d (ds.flatten ++ last) = pushDecoder (pushesDecoder d ds) last ∧
    pushInv d (ds.flatten ++ last) = pushesInv d ds + pushInv (pushesDecoder d ds) last ∧
    pushAccepted d (ds.flatten ++ last) = ds.flatten.length + pushAccepted (pushesDecoder d ds) last := by
  induction ds with
  | nil => intro d _; simp [pushesDecoder, pushesInv]
  | cons x ds ih =>
    intro d ⟨hx, hds⟩
    have h1 := push_append d x (ds.flatten ++ last) hx
    have h2 := ih _ hds
    simp only [List.flatten_cons, List.append_assoc, pushesDecoder, pushesInv, List.length_append]
    rw [h1.1, h1.2.1, h1.2.2, h2.1, h2.2.1, h2.2.2]
    exact ⟨rfl, by omega, by omega⟩

/-- Several DEC_PUSH commands in order. -/
theorem execAll_decPush (ds : List Bytes) : ∀ s, execAll (ds.map .decPush) s =
    .next { s with dec := pushesDecoder s.dec ds, responses := s.responses ++ pushesResponses s.dec ds } := by
  induction ds with
  | nil => intro s; simp [execAll, pushesDecoder, pushesResponses]
  | cons x ds ih =>
    intro s
    simp only [List.map_cons, execAll, exec_decPush]
    rw [ih]
    simp [pushesDecoder, pushesResponses]

/-- Commands in two lists, one after the other (R58). -/
theorem execAll_append (a b : List Instr) : ∀ s t, execAll a s = .next t → execAll (a ++ b) s = execAll b t := by
  induction a with
  | nil => intro s t h; cases h; rfl
  | cons i a ih =>
    intro s t h
    simp only [List.cons_append, execAll] at h ⊢
    rcases hx : exec i s with u | u | u <;> rw [hx] at h
    · exact ih _ _ h
    · cases h
    · cases h

/-- DEC_PUSH (R172). -/
theorem responds_decPush (s : State) (data : Bytes) : Responds (.decPush data) s
    { s with dec := pushDecoder s.dec data, responses := s.responses ++ [pushResponse s.dec data] } (pushResponse s.dec data) :=
  ⟨exec_decPush data s, rfl, rfl, rfl⟩

/-! ### A byte that raises no event -/

/-- A byte after which the queue is empty needs no draining. -/
theorem scanBytes_cons_of_empty {c : Scan} {b : Byte} (h : c.dec.dstate ≠ .complete) (hr : (dstep c b).dec.replay = [])
    (rest : Bytes) : scanBytes c (b :: rest) = ((scanBytes (dstep c b) rest).1, (scanBytes (dstep c b) rest).2 + 1) := by
  rw [scanBytes_cons h, drain_of_drained (.inl hr)]

/-- Payload bytes, with an empty queue: each is captured, and the last of `DLEN` bytes leads to ReadChecksum (R165). -/
theorem scanBytes_payload (p : Bytes) : ∀ c : Scan, c.dec.dstate = .readPayload → c.dec.replay = [] →
    c.dec.dcnt.toNat < c.dec.dlen.toNat → c.dec.dcnt.toNat + p.length ≤ c.dec.dlen.toNat →
    scanBytes c p = ({ c with dec :=
      { c.dec with
        cap := c.dec.cap ++ p
        dcs := c.dec.dcs ^^^ cks p
        dcnt := c.dec.dcnt + BitVec.ofNat 16 p.length
        dstate := if c.dec.dcnt.toNat + p.length = c.dec.dlen.toNat then .readChecksum else .readPayload } }, p.length) := by
  induction p with
  | nil =>
    rintro ⟨⟨ds, dlen, dcnt, dcs, cap, rp, ic, fc⟩, ninv⟩ h hr hlt hle
    have : ¬ dcnt.toNat = dlen.toNat := by simp only at hlt; omega
    simp only at h
    simp [h, this, cks]
  | cons b p ih =>
    rintro ⟨⟨ds, dlen, dcnt, dcs, cap, rp, ic, fc⟩, ninv⟩ h hr hlt hle
    simp only at h hr hlt
    simp only [List.length_cons] at hle
    subst h hr
    have hl := dlen.isLt
    have h1 : (dcnt + 1).toNat = dcnt.toNat + 1 := by rw [BitVec.toNat_add]; simp; omega
    have hd := dstep_readPayload (c := ⟨⟨.readPayload, dlen, dcnt, dcs, cap, [], ic, fc⟩, ninv⟩) b rfl
    by_cases he : dcnt + 1 = dlen
    · have hp : p = [] := List.length_eq_zero_iff.mp (by rw [← he, h1] at hle; omega)
      subst hp
      have hs : dstep ⟨⟨.readPayload, dlen, dcnt, dcs, cap, [], ic, fc⟩, ninv⟩ b =
          ⟨⟨.readChecksum, dlen, dcnt + 1, dcs ^^^ b, cap ++ [b], [], ic, fc⟩, ninv⟩ := by
        rw [hd]; exact if_pos he
      have hn : dcnt.toNat + 1 = dlen.toNat := by rw [← h1, he]
      rw [scanBytes_cons_of_empty (by simp) (by rw [hs]), hs]
      simp [hn]
    · have hs : dstep ⟨⟨.readPayload, dlen, dcnt, dcs, cap, [], ic, fc⟩, ninv⟩ b =
          ⟨⟨.readPayload, dlen, dcnt + 1, dcs ^^^ b, cap ++ [b], [], ic, fc⟩, ninv⟩ := by
        rw [hd]; exact if_neg he
      have hn : ¬ dcnt.toNat + 1 = dlen.toNat := by rw [← h1]; exact fun hq => he (BitVec.eq_of_toNat_eq hq)
      rw [scanBytes_cons_of_empty (by simp) (by rw [hs]), hs, ih _ rfl rfl (by simp only [h1]; omega) (by simp only [h1]; omega)]
      have hx : dcnt + 1 + BitVec.ofNat 16 p.length = dcnt + BitVec.ofNat 16 (p.length + 1) := by
        apply BitVec.eq_of_toNat_eq
        simp only [BitVec.toNat_add, h1, BitVec.toNat_ofNat]; omega
      have hy : dcnt.toNat + 1 + p.length = dcnt.toNat + (p.length + 1) := by omega
      simp only [h1, cks_cons, hx, hy, BitVec.xor_assoc, List.append_assoc, List.singleton_append, List.length_cons]

end Sys2Proof.Machine
end

