-- ==== Sys2Proof/Tests/Slice0.lean ====
section
/-! SUPPORT. Tests, each against the spec's own words or vectors (95_test_vectors.md), and one witness for each statement's hypotheses. -/

namespace Sys2Proof.Tests.Slice0

open Sys2Proof Sys2Proof.Machine

/-! ### Helpers -/

/-- The state an outcome answers. -/
def nextOf (r : Result) : Option State :=
  match r with
  | .next s => some s
  | .fault _ | .refused _ => none

/-- The last response after executing `i` in `s`. -/
def response (i : Instr) (s : State) : Option Bytes := (nextOf (exec i s)).bind fun t => t.responses.getLast?

/-- The decoder after executing `i` in `s`. -/
def decoderAfter (i : Instr) (s : State) : Option Decoder := (nextOf (exec i s)).map State.dec

/-- The accumulator after executing `i` in `s`. -/
def accAfter (i : Instr) (s : State) : Option Byte := (nextOf (exec i s)).map State.cksAcc

/-- A decoder with these elements and both counters 0. -/
def dec (d : DState) (dlen dcnt : BitVec 16) (dcs : Byte) (cap replay : Bytes) : Decoder :=
  { dstate := d, dlen := dlen, dcnt := dcnt, dcs := dcs, cap := cap, replay := replay, invCnt := 0, frmCnt := 0 }

/-- The reset state with another decoder. -/
def withDec (d : Decoder) : State := State.reset.setDec d

/-- The reset state with another accumulator. -/
def withAcc (v : Byte) : State := State.reset.setCksAcc v

/-- The reset state with these bytes on the channel and these HOST moves left. -/
def onChannel (bs : Bytes) (moves : List HostMove) : State := { State.reset with chan := bs, host := moves }

/-- `TQ`, `ACK` and `TP` of 95_test_vectors.md. -/
def tq : Bytes := [0xA0#8, 0xA1#8, 0x00#8, 0x02#8, 0x64#8, 0x20#8, 0x44#8, 0x0D#8, 0x0A#8]
def ackFrame : Bytes := [0xA0#8, 0xA1#8, 0x00#8, 0x02#8, 0x83#8, 0x01#8, 0x82#8, 0x0D#8, 0x0A#8]
def recordBytes : Bytes :=
  [0x00#8, 0x01#8, 0x86#8, 0xA0#8, 0x1D#8, 0xCD#8, 0x65#8, 0x00#8, 0x08#8, 0x8E#8, 0x12#8, 0x12#8, 0x01#8]
def tp : Bytes := [0x64#8, 0x8E#8] ++ List.replicate 14 0x00#8 ++ recordBytes

/-- The decoder that holds `TQ` (V-D1). -/
def holdingTq : Decoder := { dec .complete 2 2 0x44#8 tq [] with frmCnt := 1 }

/-- OPEN parameters, chosen for tests only (V-S4). -/
def params : RebootParams := { modeHot := 0x01#8, modeWarm := 0x02#8, modeCold := 0x03#8, tail := Vector.replicate 6 0x00#8 }

/-! ### Well-formedness: an ill-formed term for each check (R88, R92, R99) -/

theorem test_cksFeed_too_long : (Instr.cksFeed (List.replicate 65536 0x00#8)).WellFormed = false := by
  simp only [Instr.WellFormed, Bytes.FitsCount, List.length_replicate]; decide
theorem test_encFrame_too_long : (Instr.encFrame 0x64#8 (List.replicate 65536 0x00#8)).WellFormed = false := by
  simp only [Instr.WellFormed, Bytes.FitsCount, List.length_replicate]; decide
theorem test_decPush_too_long : (Instr.decPush (List.replicate 65536 0x00#8)).WellFormed = false := by
  simp only [Instr.WellFormed, Bytes.FitsCount, List.length_replicate]; decide
theorem test_gtcDecode_too_long : (Instr.gtcDecode (List.replicate 65536 0x00#8)).WellFormed = false := by
  simp only [Instr.WellFormed, Bytes.FitsCount, List.length_replicate]; decide
theorem test_gtcConvert_too_long : (Instr.gtcConvert (List.replicate 65536 0x00#8)).WellFormed = false := by
  simp only [Instr.WellFormed, Bytes.FitsCount, List.length_replicate]; decide
theorem test_illegal_is_mapped : (Instr.illegal 0x33#8).WellFormed = false := by decide
theorem test_longest_is_well_formed : (Instr.decPush (List.replicate 65535 0x00#8)).WellFormed = true := by
  simp only [Instr.WellFormed, Bytes.FitsCount, List.length_replicate]; decide

/-! ### Decoding: a word of every command, written out from R87 and R88 -/

theorem test_decode_rst : decode [0x01#8] = .command .rst [] := by decide
theorem test_decode_cksClr : decode [0x10#8] = .command .cksClr [] := by decide
theorem test_decode_cksFeed : decode [0x11#8, 0x00#8, 0x02#8, 0x64#8, 0x20#8, 0x12#8] =
    .command (.cksFeed [0x64#8, 0x20#8]) [0x12#8] := by decide
theorem test_decode_cksRead : decode [0x12#8] = .command .cksRead [] := by decide
theorem test_decode_encFrame : decode [0x20#8, 0x64#8, 0x00#8, 0x01#8, 0x20#8] = .command (.encFrame 0x64#8 [0x20#8]) [] := by decide
theorem test_decode_decPush : decode [0x30#8, 0x00#8, 0x03#8, 0xA0#8, 0xA1#8, 0x00#8] =
    .command (.decPush [0xA0#8, 0xA1#8, 0x00#8]) [] := by decide
theorem test_decode_decTake : decode [0x31#8] = .command .decTake [] := by decide
theorem test_decode_decStatus : decode [0x32#8] = .command .decStatus [] := by decide
theorem test_decode_decFlush : decode [0x33#8] = .command .decFlush [] := by decide
theorem test_decode_gtcDecode : decode [0x40#8, 0x00#8, 0x02#8, 0x64#8, 0x8E#8] = .command (.gtcDecode [0x64#8, 0x8E#8]) [] := by decide
/-- V-S3. -/
theorem test_decode_gtcEpoch : decode (0x41#8 :: recordBytes) =
    .command (.gtcEpoch { tow := 100000, stow := 500000000, wn := 2190, defleap := 18, curleap := 18, valid := 1 }) [] := by decide
theorem test_decode_gtcConvert : decode [0x42#8, 0x00#8, 0x01#8, 0x64#8] = .command (.gtcConvert [0x64#8]) [] := by decide
theorem test_decode_illegal : decode [0x34#8, 0x01#8] = .command (.illegal 0x34#8) [0x01#8] := by decide
/-- R96: the high byte of `n` alone, or fewer than `n` bytes, is no command yet. -/
theorem test_decode_waits : decode [0x11#8, 0x00#8] = .waiting .partialCommand ∧
    decode [0x11#8, 0x01#8, 0x00#8, 0x64#8] = .waiting .partialCommand ∧ decode [] = .waiting .emptyChannel := by decide
/-- Words numbered as the opcode table numbers them: byte 1 of ENC_FRAME is its id. -/
theorem test_table_word : decodeTableWord 32 0x01006420 = some (.encFrame 0x64#8 [0x00#8]) := by decide

/-! ### The checksum unit -/

/-- V-C1. -/
theorem test_cksClr : accAfter .cksClr (withAcc 0x5A#8) = some 0x00#8 ∧ response .cksClr (withAcc 0x5A#8) = some [0x00#8] := by decide
/-- V-C2. -/
theorem test_cksFeed : response (.cksFeed [0x64#8, 0x20#8]) State.reset = some [0x00#8, 0x44#8] := by decide
/-- V-C3. -/
theorem test_cksFeed_nothing : response (.cksFeed []) (withAcc 0x44#8) = some [0x00#8, 0x44#8] := by decide
/-- V-G6, last command. -/
theorem test_cksRead : response .cksRead (withAcc 0x5A#8) = some [0x00#8, 0x5A#8] := by decide

/-! ### The encoder -/

/-- V-E3: markers in the body are not escaped. -/
theorem test_encFrame : response (.encFrame 0x10#8 [0xA0#8, 0xA1#8, 0x0D#8, 0x0A#8]) State.reset =
    some [0x00#8, 0xA0#8, 0xA1#8, 0x00#8, 0x05#8, 0x10#8, 0xA0#8, 0xA1#8, 0x0D#8, 0x0A#8, 0x16#8, 0x0D#8, 0x0A#8] := by decide
/-- V-E10. -/
theorem test_encFrame_badLen : response (.encFrame 0x7E#8 (List.replicate 65535 0x00#8)) State.reset = some [0x02#8] := by
  rw [response, (responds_encFrame_badLen State.reset _ 0x7E#8 (by rw [List.length_replicate]; decide)).1]; rfl

/-! ### The decoder -/

/-- V-D1. -/
theorem test_decPush_frame : response (.decPush tq) State.reset =
      some [0x00#8, 0x00#8, 0x09#8, 0x00#8, 0x00#8, 0x00#8, 0x00#8, 0x01#8] ∧
    decoderAfter (.decPush tq) State.reset = some holdingTq := by decide
/-- V-D14: the nested frame completes from REPLAY, the sixteenth byte is not accepted. -/
theorem test_decPush_nested : decoderAfter (.decPush ([0xA0#8, 0xA1#8, 0x00#8, 0x0A#8] ++ ackFrame ++ [0x77#8, 0x0D#8, 0x0A#8]))
    State.reset = some { dec .complete 2 2 0x82#8 ackFrame [0x77#8, 0x0D#8] with invCnt := 1, frmCnt := 1 } := by decide
/-- V-D1. -/
theorem test_decTake : response .decTake (withDec holdingTq) =
    some [0x00#8, 0x00#8, 0x02#8, 0x64#8, 0x20#8, 0x44#8, 0x00#8, 0x00#8, 0x00#8, 0x00#8, 0x00#8] := by decide
/-- V-D11. -/
theorem test_decTake_noFrame : response .decTake State.reset = some [0x04#8] := by decide
/-- V-D12. -/
theorem test_decStatus : response .decStatus (withDec (dec .readPayload 2 1 0x64#8 (tq.take 5) [])) =
    some [0x00#8, 0x04#8, 0x00#8, 0x02#8, 0x00#8, 0x01#8, 0x64#8, 0x00#8, 0x00#8, 0x05#8, 0x00#8, 0x00#8, 0x00#8, 0x00#8,
      0x00#8, 0x00#8, 0x00#8, 0x00#8, 0x00#8, 0x00#8, 0x00#8] := by decide
/-- V-D20, and the counter stays (R175). -/
theorem test_decFlush : decoderAfter .decFlush (withDec holdingTq) = some { Decoder.reset with frmCnt := 1 } := by decide

/-! ### The converter -/

/-- V-G1. -/
theorem test_gtcDecode : response (.gtcDecode tp) State.reset = some (0x00#8 :: recordBytes) := by decide
/-- V-G6. -/
theorem test_gtcDecode_truncated : response (.gtcDecode (tp.take 28)) State.reset = some [0x03#8] := by decide
/-- V-G5: a negative `defleap` adds, `curleap` is unused. -/
theorem test_gtcEpoch : response (.gtcEpoch { tow := 1234567, stow := 999, wn := 0, defleap := 0xFF#8, curleap := 5, valid := 1 })
    State.reset = some [0x00#8, 0x00#8, 0x00#8, 0x00#8, 0x00#8, 0x12#8, 0xD5#8, 0x42#8, 0x53#8, 0x21#8, 0xCB#8, 0xBF#8, 0xA7#8,
      0x00#8] := by decide
/-- V-G3: the largest seconds and an overflow of the nanoseconds. -/
theorem test_gtcEpoch_overflow : response
      (.gtcEpoch { tow := 0xFFFFFFFF#32, stow := 0xFFFFFFFF#32, wn := 0xFFFF#16, defleap := 0x80#8, curleap := 0, valid := 0 })
      State.reset =
    some [0x00#8, 0x00#8, 0x00#8, 0x00#8, 0x09#8, 0x4D#8, 0x8D#8, 0x8C#8, 0xB7#8, 0x11#8, 0x95#8, 0x57#8, 0xBF#8, 0x01#8] := by decide
/-- V-G1c. -/
theorem test_gtcConvert : response (.gtcConvert tp) State.reset =
    some (0x00#8 :: (recordBytes ++ [0x00#8, 0x00#8, 0x00#8, 0x00#8, 0x61#8, 0xC7#8, 0xB0#8, 0xD2#8, 0x1D#8, 0xCD#8, 0x65#8, 0x00#8,
      0x00#8])) := by decide
/-- V-G6. -/
theorem test_gtcConvert_truncated : response (.gtcConvert (tp.take 28)) State.reset = some [0x03#8] := by decide

/-! ### Control, illegal opcodes and the channel -/

/-- V-X1. -/
theorem test_rst : nextOf (exec .rst ((withDec holdingTq).setCksAcc 0x5A#8)) = some (State.reset.addResponse [0x00#8]) := by decide
/-- V-X2. -/
theorem test_illegal : nextOf (exec (.illegal 0x34#8) (withDec holdingTq)) = some ((withDec holdingTq).addResponse [0x01#8]) := by decide
/-- R96: with part of a command on the channel and no HOST move left, nothing changes. -/
theorem test_step_waits : nextOf (step (onChannel [0x11#8, 0x00#8] [])) = some (onChannel [0x11#8, 0x00#8] []) := by decide
/-- R280: a reset discards the part of a command. -/
theorem test_step_reset : nextOf (step (onChannel [0x11#8, 0x00#8] [.assertReset])) = some State.reset := by decide

/-! ### The assembler and the pseudo-commands -/

/-- R98: a line with a comment, and the bytes of R88 for it. -/
theorem test_assemble : assembleBytes params "CKS_FEED [0x64, 32] ; V-C2\nDEC_STATUS".toList =
    .done [0x11#8, 0x00#8, 0x02#8, 0x64#8, 0x20#8, 0x32#8] := by decide
/-- R99: a value above 255 is refused. -/
theorem test_assemble_range : assembleProgram params "ACK 256".toList = .refused .valueOutOfRange := by decide
/-- V-S4. -/
theorem test_reboot : (expand params (.reboot .hot 2021 12 26 12 0 0)).map encode =
    [[0x20#8, 0x01#8, 0x00#8, 0x0E#8, 0x01#8, 0x07#8, 0xE5#8, 0x0C#8, 0x1A#8, 0x0C#8, 0x00#8, 0x00#8, 0x00#8, 0x00#8, 0x00#8, 0x00#8,
      0x00#8, 0x00#8]] := by decide

/-! ### Witnesses: for each statement with hypotheses, a state and operands that meet them, each clause at a boundary -/

/-- `n` zero bytes. -/
def zeros (n : Nat) : Bytes := List.replicate n 0x00#8

theorem zeros_length (n : Nat) : (zeros n).length = n := List.length_replicate

/-- DecodeOfEncodeIsTheCommand: the longest list. -/
theorem witness_DecodeOfEncodeIsTheCommand : (Instr.cksFeed (zeros 65535)).WellFormed = true := by
  simp only [Instr.WellFormed, Bytes.FitsCount, zeros_length]; decide
/-- DecodedBytesAreTheEncoding. -/
theorem witness_DecodedBytesAreTheEncoding : decode [0x11#8, 0x00#8, 0x00#8, 0x12#8] = .command (.cksFeed []) [0x12#8] := by decide
/-- IllegalOpcodesRespondIllegal: an edge of a range. -/
theorem witness_IllegalOpcodesRespondIllegal : opcodeOf 0x43#8 = none ∧ opcodeOf 0x0F#8 = none := by decide
/-- CommandLayoutsAreTheTable: the longest list. -/
theorem witness_CommandLayoutsAreTheTable : (zeros 65535).length ≤ 65535 := by rw [zeros_length]
/-- StepExecutesTheDecodedCommand. -/
theorem witness_StepExecutesTheDecodedCommand : decode (onChannel [0x31#8, 0x32#8] []).chan = .command .decTake [0x32#8] := by decide
/-- PartOfACommandHasNoEffect: no part delivered, all but one byte delivered; no HOST move, any bytes, the rest. -/
theorem witness_PartOfACommandHasNoEffect :
    (Instr.cksFeed [0x64#8]).WellFormed = true ∧ encode (.cksFeed [0x64#8]) = [] ++ [0x11#8, 0x00#8, 0x01#8, 0x64#8] ∧
    encode (.cksFeed [0x64#8]) = [0x11#8, 0x00#8, 0x01#8] ++ [0x64#8] ∧ [0x64#8] ≠ ([] : Bytes) ∧
    (onChannel [0x11#8, 0x00#8, 0x01#8] []).chan = [0x11#8, 0x00#8, 0x01#8] ∧
    (onChannel [0x11#8, 0x00#8, 0x01#8] []).host = [] ∧
    (onChannel [0x11#8, 0x00#8, 0x01#8] [.send []]).host = [HostMove.send []] ∧
    (onChannel [0x11#8, 0x00#8, 0x01#8] [.send [0x64#8]]).host = [HostMove.send [0x64#8]] := by decide
/-- EveryStepAnswersNext: both cases. -/
theorem witness_EveryStepAnswersNext : decode (onChannel [] []).chan = .waiting .emptyChannel ∧
    decode (onChannel [0x31#8] []).chan = .command .decTake [] := by decide
/-- PlacedWordIsExecutedNext. -/
theorem witness_PlacedWordIsExecutedNext : decodeTableWord 8 0x31 = some .decTake := by decide
/-- RunIsTheCommandsInOrder. -/
theorem witness_RunIsTheCommandsInOrder : ∀ i ∈ [Instr.rst, .cksFeed [0x64#8], .illegal 0x00#8], i.WellFormed = true := by decide
/-- ErrorsHaveNoEffect, and the clause of ErrorStatusesAndTheirCauses for NO_FRAME. -/
theorem witness_ErrorsHaveNoEffect : Responds .decTake State.reset (State.reset.addResponse [0x04#8]) [0x04#8] ∧
    [0x04#8].head? ≠ some 0x00#8 := ⟨responds_decTake_noFrame _ (by decide), by decide⟩
/-- ErrorStatusesAndTheirCauses: BAD_LEN, TRUNCATED at 28 bytes and ILLEGAL; NO_FRAME stands above. -/
theorem witness_ErrorStatusesAndTheirCauses :
    ((Instr.encFrame 0x7E#8 (zeros 65535)).WellFormed = true ∧ (zeros 65535).length = 65535 ∧
      Responds (.encFrame 0x7E#8 (zeros 65535)) State.reset (State.reset.addResponse [0x02#8]) [0x02#8]) ∧
    ((Instr.gtcDecode (zeros 28)).WellFormed = true ∧
      Responds (.gtcDecode (zeros 28)) State.reset (State.reset.addResponse [0x03#8]) [0x03#8]) ∧
    ((Instr.illegal 0x13#8).WellFormed = true ∧
      Responds (.illegal 0x13#8) State.reset (State.reset.addResponse [0x01#8]) [0x01#8]) := by
  refine ⟨⟨?_, zeros_length _, responds_encFrame_badLen _ _ _ (by rw [zeros_length]; decide)⟩,
    ⟨by decide, responds_gtcDecode_truncated _ _ (by decide)⟩, ⟨by decide, responds_illegal _ _⟩⟩
  simp only [Instr.WellFormed, Bytes.FitsCount, zeros_length]; decide
/-- OkResponsesHaveTheTableLengths: a held frame is taken. -/
theorem witness_OkResponsesHaveTheTableLengths : (withDec holdingTq).Inv ∧
    (∃ t r, Responds .decTake (withDec holdingTq) t r ∧ r.head? = some 0x00#8) :=
  ⟨by decide, _, _, responds_decTake _ rfl, rfl⟩
/-- PowerOnResetDiscardsAPartialCommand. -/
theorem witness_PowerOnResetDiscardsAPartialCommand :
    decode (onChannel [0x11#8] [.assertReset]).chan = .waiting .partialCommand ∧
    (onChannel [0x11#8] [.assertReset]).host = [HostMove.assertReset] := by decide
/-- RstResetsTheWholeBlock: a block at reset. -/
theorem witness_RstResetsTheWholeBlock : AtReset State.reset := by unfold AtReset; decide
/-- ChecksumLaws: a permutation; the last byte and the last bit; two positions. -/
theorem witness_ChecksumLaws : [0x01#8, 0x02#8].Perm [0x02#8, 0x01#8] ∧ 1 < [0x01#8, 0x02#8].length ∧ 7 < 8 ∧ (0 : Nat) ≠ 1 :=
  ⟨List.Perm.swap _ _ _, by decide⟩
/-- CksFeedXorsTheData: no data. -/
theorem witness_CksFeedXorsTheData : (zeros 0) = [] := rfl
/-- OtherUnitsNeitherReadNorWriteCksAcc. -/
theorem witness_OtherUnitsNeitherReadNorWriteCksAcc : usesCksAcc .decStatus = false := rfl
/-- EncFrameBuildsTheFrame: both clauses where they meet. -/
theorem witness_EncFrameBuildsTheFrame : (zeros 65534).length ≤ 65534 ∧ (zeros 65535).length = 65535 := by
  rw [zeros_length, zeros_length]; decide
/-- EncodeThenDecodeRoundTrip: an empty body, its frame in three chunks, one of them empty. -/
theorem witness_EncodeThenDecodeRoundTrip : (zeros 0).length ≤ 65534 ∧
    (∃ e, Responds (.encFrame 0x55#8 []) State.reset e (0x00#8 :: [0xA0#8, 0xA1#8, 0x00#8, 0x01#8, 0x55#8, 0x55#8, 0x0D#8, 0x0A#8])) ∧
    State.reset.dec.dstate = .seekStart1 ∧ State.reset.dec.replay = [] ∧
    [[0xA0#8, 0xA1#8, 0x00#8], [], [0x01#8, 0x55#8, 0x55#8, 0x0D#8, 0x0A#8]].flatten =
      [0xA0#8, 0xA1#8, 0x00#8, 0x01#8, 0x55#8, 0x55#8, 0x0D#8, 0x0A#8] ∧
    (∀ c ∈ [[0xA0#8, 0xA1#8, 0x00#8], [], [0x01#8, 0x55#8, 0x55#8, 0x0D#8, 0x0A#8]], c.length ≤ 65535) :=
  ⟨by decide, ⟨_, responds_encFrame _ _ _ (by decide)⟩, rfl, rfl, rfl, by decide⟩
/-- SeekingTheStartMarker: each state, and for each clause a byte. -/
theorem witness_SeekingTheStartMarker : (startScan Decoder.reset).dec.dstate = .seekStart1 ∧
    (startScan (dec .seekStart2 0 0 0 [start1] [])).dec.dstate = .seekStart2 ∧
    CandidateInv (dec .seekStart2 0 0 0 [start1] []) ∧
    0xA1#8 ≠ 0xA0#8 ∧ 0xA0#8 ≠ 0xA1#8 ∧ 0xA2#8 ≠ 0xA1#8 ∧ 0xA2#8 ≠ 0xA0#8 := by decide
/-- ReadingTheDeclaredLength: both states. -/
theorem witness_ReadingTheDeclaredLength : (startScan (dec .readLengthHi 0 0 0 [start1, start2] [])).dec.dstate = .readLengthHi ∧
    (startScan (dec .readLengthLo 0xFF00 0 0 [start1, start2, 0xFF#8] [])).dec.dstate = .readLengthLo ∧
    CandidateInv (startScan (dec .readLengthLo 0xFF00 0 0 [start1, start2, 0xFF#8] [])).dec := by decide
/-- ReadingThePayload: the last payload byte is to come. -/
theorem witness_ReadingThePayload : (startScan (dec .readPayload 2 1 0x64#8 (tq.take 5) [])).dec.dstate = .readPayload ∧
    CandidateInv (startScan (dec .readPayload 2 1 0x64#8 (tq.take 5) [])).dec := by decide
/-- CheckingTheTrailer: each of the three states, and a queued byte after a wrong checksum byte; its two equations define `bad` and
`good`. -/
theorem witness_CheckingTheTrailer : (startScan (dec .readChecksum 2 2 0x44#8 (tq.take 6) [])).dec.dstate = .readChecksum ∧
    (startScan (dec .readEnd1 2 2 0x44#8 (tq.take 7) [])).dec.dstate = .readEnd1 ∧
    (startScan (dec .readEnd2 2 2 0x44#8 (tq.take 8) [])).dec.dstate = .readEnd2 ∧
    (tq.take 6 ++ [0x45#8]).tail ++ [] = 0xA1#8 :: [0x00#8, 0x02#8, 0x64#8, 0x20#8, 0x45#8] := by decide
/-- ResynchronisationTerminates: a queued byte to scan, and the sizes at 0. -/
theorem witness_ResynchronisationTerminates :
    (startScan (dec .seekStart1 0 0 0 [] [0xA0#8])).dec.dstate ≠ .complete ∧
    (startScan (dec .seekStart1 0 0 0 [] [0xA0#8])).dec.replay = 0xA0#8 :: [] ∧
    0 = Decoder.reset.cap.length + Decoder.reset.replay.length + ([] : Bytes).length ∧
    9 = holdingTq.cap.length + holdingTq.replay.length := by decide
/-- DecPushScansUntilComplete: its inner hypotheses. -/
theorem witness_DecPushScansUntilComplete : ReplayInv Decoder.reset ∧ ReplayInv holdingTq := by decide
/-- DecTakeReturnsTheHeldFrame: both clauses. -/
theorem witness_DecTakeReturnsTheHeldFrame : (withDec holdingTq).dec.dstate = .complete ∧ State.reset.dec.dstate ≠ .complete := by decide
/-- DecStatusReportsTheDecoder: the invariant. -/
theorem witness_DecStatusReportsTheDecoder : (withDec holdingTq).Inv := by decide
/-- HeldFrameBlocksDecoding, and a command that does not write the decoder. -/
theorem witness_HeldFrameBlocksDecoding : (withDec holdingTq).dec.dstate = .complete ∧
    Instr.decStatus ≠ .decTake ∧ Instr.decStatus ≠ .decFlush ∧ Instr.decStatus ≠ .rst := by decide
/-- `TQ` in chunks of 3, 4 and 2 (V-D2), with commands of other units between the pushes. -/
def chunkedTq : List Instr := [.decPush (tq.take 3), .decStatus, .cksRead, .decPush ((tq.drop 3).take 4), .encFrame 0x02#8 [0x00#8]]
/-- DecodingIsResumable: the chunks of `TQ`, without and with a command between them that writes CKS_ACC. -/
theorem witness_DecodingIsResumable :
    (∀ i ∈ chunkedTq, (∃ data, i = .decPush data) ∨ writesDecoder i = false) ∧ (∀ i ∈ chunkedTq, writesCksAcc i = false) ∧
    (∀ i ∈ .cksFeed [0x01#8] :: chunkedTq, (∃ data, i = .decPush data) ∨ writesDecoder i = false) ∧
    pushedData (.cksFeed [0x01#8] :: chunkedTq) = pushedData chunkedTq ∧
    pushedData chunkedTq = [tq.take 3, (tq.drop 3).take 4] ∧
    ((pushedData chunkedTq).flatten ++ tq.drop 7).length ≤ 65535 ∧ AllAccepted Decoder.reset (pushedData chunkedTq) := by
  refine ⟨?_, by decide, ?_, rfl, rfl, by decide, by decide, by decide, trivial⟩ <;> simp [chunkedTq, writesDecoder]
/-- SingleBitErrorsAreInvalid: the first payload byte and the checksum byte, the lowest and the highest bit (V-S6). -/
theorem witness_SingleBitErrorsAreInvalid : [0x64#8, 0x20#8].length ≤ 65535 ∧ 0 < 8 ∧ 7 < 8 ∧ 4 ≤ 4 ∧ 4 ≤ 4 + [0x64#8, 0x20#8].length ∧
    6 ≤ 4 + [0x64#8, 0x20#8].length ∧ Decoder.reset.dstate = .seekStart1 ∧ Decoder.reset.replay = [] ∧
    tq.modify 6 (· ^^^ (1#8 <<< 0)) = (frameOf [0x64#8, 0x20#8]).modify 6 (· ^^^ (1#8 <<< 0)) := by decide
/-- ResynchronisationOutcome: V-D13. -/
theorem witness_ResynchronisationOutcome :
    ∃ c : Bytes, c = [0xA0#8, 0xA1#8, 0x00#8, 0x02#8, 0x64#8, 0x21#8, 0x44#8, 0x0D#8, 0x0A#8] ∧
      [0x83#8, 0x01#8].length ≤ 65535 ∧ (c ++ frameOf [0x83#8, 0x01#8]).length ≤ 65535 ∧
      State.reset.dec.dstate = .seekStart1 ∧ State.reset.dec.replay = [] ∧ slice c 0 2 = [0xA0#8, 0xA1#8] ∧
      2 = be (slice c 2 4) ∧ c.length = 2 + 7 ∧ slice c (4 + 2) (7 + 2) ≠ [cks (slice c 4 (4 + 2)), 0x0D#8, 0x0A#8] ∧
      0xA0#8 ∉ c.tail := ⟨_, rfl, by decide⟩
/-- CompleteHoldsAValidFrame: a held frame, and the byte that completes it. -/
theorem witness_CompleteHoldsAValidFrame : (withDec holdingTq).Inv ∧ (withDec holdingTq).dec.dstate = .complete ∧
    CandidateInv (startScan (dec .readEnd2 2 2 0x44#8 (tq.take 8) [])).dec ∧
    (startScan (dec .readEnd2 2 2 0x44#8 (tq.take 8) [])).dec.dstate ≠ .complete ∧
    (dstep (startScan (dec .readEnd2 2 2 0x44#8 (tq.take 8) [])) 0x0A#8).dec.dstate = .complete :=
  ⟨by decide, by decide, by decide, by decide, by decide⟩
/-- EveryPayloadDecodes: the empty payload and the longest. -/
theorem witness_EveryPayloadDecodes : (zeros 0).length ≤ 65535 ∧ (zeros 65535).length ≤ 65535 ∧
    Decoder.reset.dstate = .seekStart1 ∧ Decoder.reset.replay = [] := by
  rw [zeros_length, zeros_length]; decide
/-- FramingErrorsAreAbsorbed. -/
theorem witness_FramingErrorsAreAbsorbed : (withDec holdingTq).dec.dstate = .complete := rfl
/-- CountersCountTheEvents: each clause. -/
theorem witness_CountersCountTheEvents :
    (∃ t r, Responds .decStatus State.reset t r) ∧ Instr.decStatus ≠ .rst ∧ writesDecoder .decStatus = false ∧
    (∃ t r, Responds (.decPush tq) State.reset t r) ∧ Instr.decPush tq ≠ .rst ∧
    (∃ t r, Responds .decTake (withDec holdingTq) t r) ∧ (withDec holdingTq).dec.dstate = .complete :=
  ⟨exec_next _ _, by decide, rfl, exec_next _ _, by decide, exec_next _ _, rfl⟩
/-- GtcDecodeReturnsTheRecord, GtcConvertDecodesAndConverts: both clauses where they meet. -/
theorem witness_GtcDecodeReturnsTheRecord : 29 ≤ tp.length ∧ (tp.take 28).length < 29 := by decide
theorem witness_GtcConvertDecodesAndConverts : 29 ≤ (zeros 29).length ∧ (zeros 28).length < 29 := by decide
/-- NanosecondOverflowLosesNothing: its equivalence, on the overflow side (V-G2). -/
theorem witness_NanosecondOverflowLosesNothing :
    2 ^ 32 ≤ nsExact { tow := 1, stow := 0xFFFFFFFF#32, wn := 0, defleap := 0, curleap := 0, valid := 1 } := by decide
/-- EpochRanges: the records of V-G4 and V-G3. -/
theorem witness_EpochRanges :
    (∃ t : GpsTime, t.wn = 0 ∧ t.tow = 0 ∧ t.defleap.toInt = 127 ∧ t.stow = 0) ∧
    (∃ t : GpsTime, t.wn.toNat = 65535 ∧ t.tow.toNat = 4294967295 ∧ t.defleap.toInt = -128) :=
  ⟨⟨{ tow := 0, stow := 0, wn := 0, defleap := 127, curleap := 0, valid := 0 }, by decide⟩,
    ⟨{ tow := 4294967295, stow := 4294967295, wn := 65535, defleap := 128, curleap := 0, valid := 0 }, by decide⟩⟩
/-- ConverterReadsOnlyTheRecord: two payloads with the same record and different bytes around it. -/
theorem witness_ConverterReadsOnlyTheRecord : 29 ≤ tp.length ∧ 29 ≤ (zeros 16 ++ recordBytes ++ [0xEE#8]).length ∧
    slice tp 16 29 = slice (zeros 16 ++ recordBytes ++ [0xEE#8]) 16 29 ∧ tp ≠ zeros 16 ++ recordBytes ++ [0xEE#8] := by decide
/-- EveryStepKeepsTheDecoderInvariant: a step that executes a command, from a state that is not reset. -/
theorem witness_EveryStepKeepsTheDecoderInvariant : ({ withDec holdingTq with chan := [0x31#8] } : State).Inv ∧
    ∃ t, step { withDec holdingTq with chan := [0x31#8] } = .next t := by
  refine ⟨by decide, ?_⟩
  obtain ⟨t, r, h⟩ := exec_next .decTake (withDec holdingTq)
  exact ⟨t, h.1⟩
/-- FrameOfEveryCommand, with a command that writes neither and one that writes the decoder only. -/
theorem witness_FrameOfEveryCommand : (∃ t, exec .decStatus State.reset = .next t) ∧ writesCksAcc .decStatus = false ∧
    writesDecoder .decStatus = false ∧ (∃ t, exec .decTake State.reset = .next t) ∧ writesCksAcc .decTake = false := by
  obtain ⟨t, r, h⟩ := exec_next .decStatus State.reset
  obtain ⟨u, q, g⟩ := exec_next .decTake State.reset
  exact ⟨⟨t, h.1⟩, rfl, rfl, ⟨u, g.1⟩, rfl⟩
/-- StatelessUnitsAndReaders: an instruction of each kind. -/
theorem witness_StatelessUnitsAndReaders : (∃ i : Instr, ∃ id body, i = .encFrame id body) ∧
    (∃ i : Instr, i = .decStatus ∨ i = .cksRead) := ⟨⟨_, 0x64#8, [], rfl⟩, ⟨_, .inl rfl⟩⟩
/-- R98's text forms of a byte list, of ENC_FRAME and of a record. -/
theorem test_commandText : commandText (.decPush [0xA0#8, 0x0D#8]) = "DEC_PUSH [0xA0, 0x0D]".toList ∧
    commandText (.encFrame 0x64#8 [0x20#8]) = "ENC_FRAME 0x64, [0x20]".toList ∧
    commandText (.gtcEpoch { tow := 100000, stow := 0, wn := 2190, defleap := 0xEE#8, curleap := 18, valid := 1 }) =
      ("GTC_EPOCH ".toList ++ Char.ofNat 123 :: ("tow=0000100000, stow=0000000000, wn=02190, defleap=-018, " ++
        "curleap=018, valid=001").toList ++ [Char.ofNat 125]) := by decide
/-- AssembledCommandsAreWellFormed: a text that assembles, a list of commands, a line, and numbers at their bounds. -/
theorem witness_AssembledCommandsAreWellFormed :
    assembleProgram params "DEC_PUSH [0xA0, 161]\nTIMEQ".toList = .done [.decPush [0xA0#8, 0xA1#8], .encFrame 0x64#8 [0x20#8]] ∧
    ([Instr.rst, .decPush tq].all fun i => i.WellFormed) = true ∧ (∀ i ∈ [Instr.rst, .decPush tq], ∀ op, i ≠ .illegal op) ∧
    '\n' ∉ "RST ; reset".toList ∧ 0 < 2 ∧ 255 < 16 ^ 2 ∧ 99 < 10 ^ 2 := by
  refine ⟨by decide, by decide, by simp, by decide, by decide, by decide, by decide⟩
/-- AssemblerRefusesOutOfRange: the values at each type's bounds, and a list at its longest. -/
theorem witness_AssemblerRefusesOutOfRange_values : ((0 : Int) ≤ 255 ∧ (255 : Int) ≤ 255) ∧ ((-1 : Int) < 0 ∨ (255 : Int) < -1) ∧
    ((-128 : Int) ≤ -128 ∧ (-128 : Int) ≤ 127) ∧ ((128 : Int) < -128 ∨ (127 : Int) < 128) ∧ ((0 : Int) ≤ 65535 ∧ (65535 : Int) < 2 ^ 16) ∧
    ((65536 : Int) < 0 ∨ 2 ^ 16 ≤ (65536 : Int)) ∧ (∃ v ∈ [(0 : Int), 256], v < 0 ∨ 255 < v) ∧
    (∀ v ∈ [(0 : Int), 255], 0 ≤ v ∧ v ≤ 255) ∧ 65535 < (List.replicate 65536 (0 : Int)).length ∧
    (List.replicate 65535 (0 : Int)).length ≤ 65535 := by
  rw [List.length_replicate, List.length_replicate]; decide
/-- AssemblerRefusesOutOfRange: byte lists and the operands of ENC_FRAME, ACK and REBOOT, accepted and refused (R98, R99, R102). -/
theorem witness_AssemblerRefusesOutOfRange :
    byteList (listTokens [0, 255]) = .done [0x00#8, 0xFF#8] ∧ byteList (listTokens [0, 256]) = .refused .valueOutOfRange ∧
    byteList (listTokens []) = .done [] ∧ oneByte [.num (-1)] = .refused .valueOutOfRange ∧
    oneByte [.num 255] = .done 0xFF#8 ∧ encFrameOperands (.num 256 :: .comma :: listTokens [1]) = .refused .valueOutOfRange ∧
    encFrameOperands (.num 255 :: .comma :: listTokens [1]) = .done (.encFrame 0xFF#8 [0x01#8]) ∧
    "RESET".toList ∉ ["RST", "CKS_CLR", "CKS_FEED", "CKS_READ", "ENC_FRAME", "DEC_PUSH", "DEC_TAKE", "DEC_STATUS", "DEC_FLUSH",
      "GTC_DECODE", "GTC_EPOCH", "GTC_CONVERT", "TIMEQ", "CKS_CALC", "REBOOT", "ACK", "NACK"].map String.toList ∧
    "HOT".toList = (match RebootMode.hot with | .hot => "HOT".toList | .warm => "WARM".toList | .cold => "COLD".toList) ∧
    rebootOperands (rebootTokens "HOT".toList 65535 255 0 0 0 255) = .done (.reboot .hot 0xFFFF#16 0xFF#8 0#8 0#8 0#8 0xFF#8) ∧
    rebootOperands (rebootTokens "HOT".toList 65536 0 0 0 0 0) = .refused .valueOutOfRange ∧
    rebootOperands (rebootTokens "COLD".toList 0 0 0 0 0 256) = .refused .valueOutOfRange := by decide
/-- AssemblerRefusesOutOfRange: a record at its upper bounds, and one past each bound of each field (R9, R99). -/
theorem witness_AssemblerRefusesOutOfRange_record :
    record (recordTokens 4294967295 4294967295 65535 127 127 255) =
      .done { tow := 0xFFFFFFFF#32, stow := 0xFFFFFFFF#32, wn := 0xFFFF#16, defleap := 0x7F#8, curleap := 0x7F#8, valid := 0xFF#8 } ∧
    record (recordTokens 0 0 0 (-128) (-128) 0) =
      .done { tow := 0#32, stow := 0#32, wn := 0#16, defleap := 0x80#8, curleap := 0x80#8, valid := 0#8 } ∧
    ∀ toks ∈ [recordTokens (-1) 0 0 0 0 0, recordTokens 4294967296 0 0 0 0 0, recordTokens 0 (-1) 0 0 0 0,
        recordTokens 0 4294967296 0 0 0 0, recordTokens 0 0 (-1) 0 0 0, recordTokens 0 0 65536 0 0 0,
        recordTokens 0 0 0 (-129) 0 0, recordTokens 0 0 0 128 0 0, recordTokens 0 0 0 0 (-129) 0, recordTokens 0 0 0 0 128 0,
        recordTokens 0 0 0 0 0 (-1), recordTokens 0 0 0 0 0 256], record toks = .refused .fieldOutOfRange := by decide

end Sys2Proof.Tests.Slice0
end

section
/-! The assembler's ranges (R9, R98, R99, R102). Every operand form of fixed shape answers one `if` on its range, so that what it takes
and what it refuses are the two branches of one equation; the mnemonics are grouped by the operand form they read. -/

namespace Sys2Proof.Laws

open Sys2Proof.Machine

/-- A range test before a continuation is one test around it. -/
theorem bind_ite {α β : Type} (c : Prop) [Decidable c] (a : α) (e : AsmError) (f : α → Asm β) :
    (if c then Asm.done a else .refused e).bind f = if c then f a else .refused e := by
  split <;> rfl

/-- A range test answers a result only inside its range. -/
theorem ite_eq_done {α : Type} {c : Prop} [Decidable c] {a b : α} {e : AsmError} :
    (if c then Asm.done a else .refused e) = .done b ↔ c ∧ a = b := by
  split <;> simp_all

/-- A range test refuses only outside its range. -/
theorem ite_eq_refused {α : Type} {c : Prop} [Decidable c] {a : α} {e : AsmError} :
    (if c then Asm.done a else .refused e) = .refused e ↔ ¬ c := by
  split <;> simp_all

/-! ### Single values -/

theorem toNat_ofInt_of_range {w : Nat} {v : Int} (h0 : 0 ≤ v) (h1 : v < 2 ^ w) : ((BitVec.ofInt w v).toNat : Int) = v := by
  rw [BitVec.toNat_ofInt]
  push_cast
  rw [Int.emod_eq_of_lt h0 h1, Int.toNat_of_nonneg h0]

theorem toNat_ofInt_byte {v : Int} (h : 0 ≤ v ∧ v ≤ 255) : ((BitVec.ofInt 8 v).toNat : Int) = v :=
  toNat_ofInt_of_range h.1 (by omega)

theorem toInt_ofInt_byte {v : Int} (h : -128 ≤ v ∧ v ≤ 127) : (BitVec.ofInt 8 v).toInt = v :=
  BitVec.toInt_ofInt_eq_self (by decide) (by omega) (by omega)

theorem byteOf_of_range {v : Int} (h : 0 ≤ v ∧ v ≤ 255) : byteOf v = .done (BitVec.ofInt 8 v) := if_pos h
theorem byteOf_out_of_range {v : Int} (h : v < 0 ∨ 255 < v) : byteOf v = .refused .valueOutOfRange := if_neg (by omega)

theorem byteOf_eq_done {v : Int} {b : Byte} (h : byteOf v = .done b) : v = b.toNat := by
  obtain ⟨hv, rfl⟩ := ite_eq_done.mp h
  exact (toNat_ofInt_byte hv).symm

theorem unsignedField_eq_done {w : Nat} {v : Int} {x : BitVec w} (h : unsignedField w v = .done x) : v = x.toNat := by
  obtain ⟨⟨h0, h1⟩, rfl⟩ := ite_eq_done.mp h
  exact (toNat_ofInt_of_range h0 h1).symm

theorem signedField_eq_done {v : Int} {b : Byte} (h : signedField v = .done b) : v = b.toInt := by
  obtain ⟨hv, rfl⟩ := ite_eq_done.mp h
  exact (toInt_ofInt_byte hv).symm

/-! ### Byte lists -/

/-- Byte positions are taken together or refused together. -/
theorem bytesOf_eq_ite (vs : List Int) :
    bytesOf vs = if ∀ v ∈ vs, 0 ≤ v ∧ v ≤ 255 then .done (vs.map (BitVec.ofInt 8)) else .refused .valueOutOfRange := by
  induction vs with
  | nil => rfl
  | cons v vs ih =>
    simp only [bytesOf, byteOf, ih, bind_ite, List.map_cons, List.forall_mem_cons, ite_and (_ ∧ _)]

theorem map_toNat_ofInt {vs : List Int} (h : ∀ v ∈ vs, 0 ≤ v ∧ v ≤ 255) :
    (vs.map (BitVec.ofInt 8)).map (fun b => (b.toNat : Int)) = vs := by
  rw [List.map_map]
  exact (List.map_congr_left fun v hv => toNat_ofInt_byte (h v hv)).trans (List.map_id vs)

theorem bytesOf_of_range {vs : List Int} (h : ∀ v ∈ vs, 0 ≤ v ∧ v ≤ 255) : bytesOf vs = .done (vs.map (BitVec.ofInt 8)) := by
  rw [bytesOf_eq_ite, if_pos h]

/-- One value outside a byte's range is what a list of byte positions is refused for. -/
theorem bytesOf_eq_refused_iff (vs : List Int) : bytesOf vs = .refused .valueOutOfRange ↔ ∃ v ∈ vs, v < 0 ∨ 255 < v := by
  simp only [bytesOf_eq_ite, ite_eq_refused, not_forall, not_and_or, not_le, exists_prop]

theorem bytesOf_eq_done {vs : List Int} {bs : Bytes} (h : bytesOf vs = .done bs) : vs = bs.map fun b => (b.toNat : Int) := by
  obtain ⟨hv, rfl⟩ := ite_eq_done.mp (bytesOf_eq_ite vs ▸ h)
  exact (map_toNat_ofInt hv).symm

/-- Whatever tokens a byte list is read from are the ones its values are written as. -/
theorem byteList_eq_done {toks : List Tok} {bs : Bytes} (h : byteList toks = .done bs) :
    bs.length ≤ maxLen ∧ toks = listTokens (bs.map fun b => (b.toNat : Int)) := by
  suffices ∃ vs, toks = listTokens vs by
    obtain ⟨vs, rfl⟩ := this
    rw [byteList_listTokens] at h
    split at h
    · cases h
    next short =>
      obtain rfl := bytesOf_eq_done h
      exact ⟨by simpa only [List.length_map, Nat.not_lt] using short, rfl⟩
  unfold byteList at h
  split at h
  · exact ⟨[], rfl⟩
  next v rest =>
    cases hws : listTail rest with
    | none => simp [hws] at h
    | some ws => exact ⟨v :: ws, congrArg (Tok.lbrack :: ·) (tokens_of_listTail rest ws hws v)⟩
  · cases h

/-! ### ENC_FRAME, records and REBOOT -/

theorem encFrameOperands_num_comma (id : Int) (toks : List Tok) : encFrameOperands (.num id :: .comma :: toks) =
    (byteOf id).bind fun b => (byteList toks).bind fun body => .done (.encFrame b body) := rfl

/-- A record is taken as a whole or refused as a whole: every field in its type's range (R9). -/
theorem record_recordTokens (tow stow wn defleap curleap valid : Int) :
    record (recordTokens tow stow wn defleap curleap valid) =
      if (0 ≤ tow ∧ tow < 2 ^ 32) ∧ (0 ≤ stow ∧ stow < 2 ^ 32) ∧ (0 ≤ wn ∧ wn < 2 ^ 16) ∧ (-128 ≤ defleap ∧ defleap ≤ 127) ∧
          (-128 ≤ curleap ∧ curleap ≤ 127) ∧ (0 ≤ valid ∧ valid < 2 ^ 8) then
        .done { tow := .ofInt 32 tow, stow := .ofInt 32 stow, wn := .ofInt 16 wn, defleap := .ofInt 8 defleap,
                curleap := .ofInt 8 curleap, valid := .ofInt 8 valid }
      else .refused .fieldOutOfRange := by
  simp only [record, recordTokens, if_true, unsignedField, signedField, bind_ite, ite_and (_ ∧ _)]

/-- Whatever tokens a record is read from are the ones its fields are written as. -/
theorem record_eq_done {toks : List Tok} {t : GpsTime} (h : record toks = .done t) :
    toks = recordTokens t.tow.toNat t.stow.toNat t.wn.toNat t.defleap.toInt t.curleap.toInt t.valid.toNat := by
  unfold record at h
  split at h
  · split at h
    next names =>
      simp only [List.cons.injEq, and_true] at names
      obtain ⟨rfl, rfl, rfl, rfl, rfl, rfl⟩ := names
      simp only [bind_eq_done, Asm.done.injEq] at h
      obtain ⟨tow, htow, stow, hstow, wn, hwn, defleap, hdef, curleap, hcur, valid, hvalid, rfl⟩ := h
      rw [unsignedField_eq_done htow, unsignedField_eq_done hstow, unsignedField_eq_done hwn, signedField_eq_done hdef,
        signedField_eq_done hcur, unsignedField_eq_done hvalid]
      rfl
    · cases h
  · cases h

/-- The operands of REBOOT after a mode word are taken together or refused together (R102). -/
theorem rebootOperands_rebootTokens {w : List Char} {m : RebootMode} (hw : rebootModeOf w = some m)
    (year month day hour minute second : Int) :
    rebootOperands (rebootTokens w year month day hour minute second) =
      if (0 ≤ year ∧ year ≤ 65535) ∧ ∀ v ∈ [month, day, hour, minute, second], 0 ≤ v ∧ v ≤ 255 then
        .done (.reboot m (.ofInt 16 year) (.ofInt 8 month) (.ofInt 8 day) (.ofInt 8 hour) (.ofInt 8 minute) (.ofInt 8 second))
      else .refused .valueOutOfRange := by
  simp only [rebootOperands, rebootTokens, hw, byteOf, bind_ite, List.forall_mem_cons, List.not_mem_nil, false_implies, implies_true,
    and_true, ite_and (_ ∧ _)]

/-- The reboot request's payload after its identifier, its year most significant byte first (R79, R102). -/
theorem rebootBody_eq (p : RebootParams) (m : RebootMode) (y : BitVec 16) (mo d h mi se : Byte) :
    rebootBody p m y mo d h mi se = [rebootModeByte p m, y.extractLsb' 8 8, y.extractLsb' 0 8, mo, d, h, mi, se] ++ p.tail.toList := by
  have year : beBytes 2 y.toNat = [y.extractLsb' 8 8, y.extractLsb' 0 8] := by
    simp [beBytes, BitVec.extractLsb', Nat.shiftRight_eq_div_pow]
  simp [rebootBody, year]

/-! ### The line of each mnemonic (R87, R100 to R103) -/

section Lines
variable (p : RebootParams) (toks : List Tok)

/-- The mnemonics that read a byte list. -/
theorem assembleTokens_byteList : ∀ c ∈ [("CKS_FEED", fun d => [Instr.cksFeed d]), ("DEC_PUSH", fun d => [.decPush d]),
      ("GTC_DECODE", fun d => [.gtcDecode d]), ("GTC_CONVERT", fun d => [.gtcConvert d]), ("CKS_CALC", fun d => [.cksClr, .cksFeed d])],
    assembleTokens p (.word c.1.toList :: toks) = (byteList toks).bind fun d => .done (c.2 d) := by
  simp only [List.forall_mem_cons, List.not_mem_nil, false_implies, implies_true, and_true]
  exact ⟨rfl, rfl, rfl, rfl, rfl⟩

/-- The mnemonics that read one byte. -/
theorem assembleTokens_oneByte : ∀ c ∈ [("ACK", 0x83#8), ("NACK", 0x84#8)],
    assembleTokens p (.word c.1.toList :: toks) = (oneByte toks).bind fun b => .done [.encFrame c.2 [b]] := by
  simp only [List.forall_mem_cons, List.not_mem_nil, false_implies, implies_true, and_true]
  exact ⟨rfl, rfl⟩

/-- The mnemonics that read nothing. -/
theorem assembleTokens_noOperands : ∀ c ∈ [("RST", [Instr.rst]), ("CKS_CLR", [.cksClr]), ("CKS_READ", [.cksRead]),
      ("DEC_TAKE", [.decTake]), ("DEC_STATUS", [.decStatus]), ("DEC_FLUSH", [.decFlush]), ("TIMEQ", [.encFrame 0x64#8 [0x20#8]])],
    assembleTokens p (.word c.1.toList :: toks) = noOperands c.2 toks := by
  simp only [List.forall_mem_cons, List.not_mem_nil, false_implies, implies_true, and_true]
  exact ⟨rfl, rfl, rfl, rfl, rfl, rfl, rfl⟩

theorem assembleTokens_encFrame :
    assembleTokens p (.word "ENC_FRAME".toList :: toks) = (encFrameOperands toks).bind fun i => .done [i] := rfl

theorem assembleTokens_gtcEpoch :
    assembleTokens p (.word "GTC_EPOCH".toList :: toks) = (record toks).bind fun t => .done [.gtcEpoch t] := rfl

theorem assembleTokens_reboot :
    assembleTokens p (.word "REBOOT".toList :: toks) = (rebootOperands toks).bind fun q => .done (expand p q) := rfl

theorem assembleTokens_unknown {w : List Char} (hw : w ∉ ["RST", "CKS_CLR", "CKS_FEED", "CKS_READ", "ENC_FRAME", "DEC_PUSH", "DEC_TAKE",
      "DEC_STATUS", "DEC_FLUSH", "GTC_DECODE", "GTC_EPOCH", "GTC_CONVERT", "TIMEQ", "CKS_CALC", "REBOOT", "ACK", "NACK"].map String.toList) :
    assembleTokens p (.word w :: toks) = .refused .unknownMnemonic := by
  simp only [List.map_cons, List.map_nil, List.mem_cons, List.not_mem_nil, or_false, not_or] at hw
  simp only [assembleTokens, hw, if_false]

end Lines

/-- Settles O60: the values and operand forms by their range equations and inversions above, the lines by the operand form each reads. -/
theorem assemblerRefusesOutOfRange : Obligations.AssemblerRefusesOutOfRange := by
  unfold Obligations.AssemblerRefusesOutOfRange
  refine ⟨fun v => ⟨fun h => ?_, fun h => ?_, fun h => ?_, fun h => ?_⟩, fun w v => ⟨fun h => ?_, fun h => ?_⟩, ?_, ?_, ?_, ?_, ?_, ?_,
    ?_, ?_⟩
  · exact ⟨_, byteOf_of_range h, byteOf_of_range h, toNat_ofInt_byte h⟩
  · exact ⟨byteOf_out_of_range h, byteOf_out_of_range h⟩
  · exact ⟨_, if_pos h, toInt_ofInt_byte h⟩
  · exact if_neg (by omega)
  · exact ⟨_, if_pos h, toNat_ofInt_of_range h.1 h.2⟩
  · exact if_neg (by omega)
  · exact fun toks bs => byteList_eq_done
  · exact fun vs => (bytesOf_eq_refused_iff vs).symm
  · intro vs
    rw [byteList_listTokens]
    refine ⟨fun h => if_pos h, fun h hv => ?_, fun h hv => ⟨_, ?_, map_toNat_ofInt hv⟩⟩
    · rw [if_neg (Nat.not_lt.mpr h), (bytesOf_eq_refused_iff vs).mpr hv]
    · rw [if_neg (Nat.not_lt.mpr h), bytesOf_of_range hv]
  · intro id vs
    rw [encFrameOperands_num_comma]
    refine ⟨fun h => ?_, fun e h he => ?_, fun bs h hbs => ⟨_, ?_, toNat_ofInt_byte h⟩⟩
    · rw [byteOf_out_of_range h, bind_refused]
    · rw [byteOf_of_range h, he, bind_done, bind_refused]
    · rw [byteOf_of_range h, hbs, bind_done, bind_done]
  · intro tow stow wn defleap curleap valid
    rw [record_recordTokens]
    refine ⟨fun ⟨htow, hstow, hwn, hdef, hcur, hvalid⟩ => ⟨_, if_pos (by omega), ?_⟩, fun h => if_neg (by omega)⟩
    exact ⟨toNat_ofInt_of_range htow.1 (by omega), toNat_ofInt_of_range hstow.1 (by omega), toNat_ofInt_of_range hwn.1 (by omega),
      toInt_ofInt_byte hdef, toInt_ofInt_byte hcur, toNat_ofInt_byte hvalid⟩
  · exact fun toks t => record_eq_done
  · intro m w year month day hour minute second hw
    have hm : rebootModeOf w = some m := by subst hw; cases m <;> rfl
    rw [rebootOperands_rebootTokens hm]
    exact ⟨fun h => ⟨_, _, _, _, _, _, if_pos h, toNat_ofInt_of_range h.1.1 (by omega), map_toNat_ofInt h.2⟩, fun h => if_neg h⟩
  · intro p toks
    have lists := assembleTokens_byteList p toks
    have bytes := assembleTokens_oneByte p toks
    simp only [List.forall_mem_cons, List.not_mem_nil, false_implies, implies_true, and_true] at lists bytes
    refine ⟨fun d h => ?_, fun e h => ?_, fun i h => ?_, fun e h => ?_, fun t h => ?_, fun e h => ?_, fun m y mo d hr mi se h => ?_,
      fun e h => ?_, fun b h => ?_, fun e h => ?_, assembleTokens_noOperands p toks, fun w => assembleTokens_unknown p toks⟩
    · simpa only [h, bind_done] using lists
    · simpa only [h, bind_refused, List.forall_mem_cons, List.not_mem_nil, false_implies, implies_true, and_true] using lists
    · rw [assembleTokens_encFrame, h, bind_done]
    · rw [assembleTokens_encFrame, h, bind_refused]
    · rw [assembleTokens_gtcEpoch, h, bind_done]
    · rw [assembleTokens_gtcEpoch, h, bind_refused]
    · rw [assembleTokens_reboot, h, bind_done, expand, rebootBody_eq]
    · rw [assembleTokens_reboot, h, bind_refused]
    · simpa only [h, bind_done] using bytes
    · simpa only [h, bind_refused, List.forall_mem_cons, List.not_mem_nil, false_implies, implies_true, and_true] using bytes

end Sys2Proof.Laws
end

section
/-! The decoder's state and the frame of every command (R22 to R36): what a command that writes nothing answers, which commands leave
`CKS_ACC` and the decoder alone, that scanning keeps the decoder invariant and counts its events, and a run of delivered commands. -/

namespace Sys2Proof.Laws

open Sys2Proof.Machine

/-! ### Frames (R22, R33, R122, R123, R172, R173, R175, R240) -/

/-- R33: the command's response is fixed by its operands, and it has no effect but that response. -/
def Stateless (i : Instr) : Prop := ∃ r, ∀ s : State, exec i s = .next (s.addResponse r)

/-- A length test that raises an error or responds, in a command that writes nothing. -/
theorem raiseError_or_respond (c : Prop) [Decidable c] (e : Status) (s : State) (fields : Bytes) :
    (if c then raiseError s e else respond s fields) =
      .next (s.addResponse (if c then [statusCode e] else statusCode .ok :: fields)) := by
  split <;> rfl

section Units
variable (id op : Byte) (body p : Bytes) (t : GpsTime)

theorem stateless_encFrame : Stateless (.encFrame id body) := ⟨_, fun s => raiseError_or_respond _ .badLen s (frameOf (id :: body))⟩
theorem stateless_gtcDecode : Stateless (.gtcDecode p) := ⟨_, fun s => raiseError_or_respond _ .truncated s _⟩
theorem stateless_gtcEpoch : Stateless (.gtcEpoch t) := ⟨_, fun _ => rfl⟩
theorem stateless_gtcConvert : Stateless (.gtcConvert p) := ⟨_, fun s => raiseError_or_respond _ .truncated s _⟩
theorem stateless_illegal : Stateless (.illegal op) := ⟨_, fun _ => rfl⟩

end Units

/-- A stateless command writes no element of the block. -/
theorem Stateless.sameBlock {i : Instr} (hi : Stateless i) {s t : State} (h : exec i s = .next t) : SameBlock s t := by
  obtain ⟨r, hr⟩ := hi
  rw [hr] at h
  cases h
  exact ⟨rfl, rfl⟩

/-- What the command does to the decoder and what it responds is a function of the decoder alone, and it has no other effect. -/
def DecoderOnly (i : Instr) : Prop := ∃ f : Decoder → Decoder × Bytes, ∀ s : State,
  exec i s = .next ((s.setDec (f s.dec).1).addResponse (f s.dec).2)

theorem Stateless.decoderOnly {i : Instr} (hi : Stateless i) : DecoderOnly i := by
  obtain ⟨r, hr⟩ := hi
  exact ⟨fun d => (d, r), hr⟩

/-- The decoder after DEC_TAKE, and its response (R173). -/
def takeEffect (d : Decoder) : Decoder × Bytes :=
  if d.dstate = .complete then
    let c := drain (startScan (clearCandidate d))
    (c.dec, 0x00#8 :: (heldFrameFields d ++ beBytes 4 c.ninv ++ [doneFlags c.dec]))
  else (d, [0x04#8])

theorem exec_decTake (s : State) :
    exec .decTake s = .next ((s.setDec (takeEffect s.dec).1).addResponse (takeEffect s.dec).2) := by
  simp only [exec, execDecTake, takeEffect]
  split <;> rfl

/-- No command of a unit other than the checksum unit and the control unit looks at `CKS_ACC` (R22). -/
theorem decoderOnly_of_not_usesCksAcc {i : Instr} (hi : usesCksAcc i = false) : DecoderOnly i := by
  cases i with
  | rst | cksClr | cksFeed | cksRead => cases hi
  | encFrame id body => exact (stateless_encFrame id body).decoderOnly
  | decPush data => exact ⟨fun d => (pushDecoder d data, pushResponse d data), exec_decPush data⟩
  | decTake => exact ⟨takeEffect, exec_decTake⟩
  | decStatus => exact ⟨fun d => (d, 0x00#8 :: statusFields d), fun _ => rfl⟩
  | decFlush => exact ⟨fun d => ({ clearCandidate d with replay := [] }, [0x00#8]), fun _ => rfl⟩
  | gtcDecode p => exact (stateless_gtcDecode p).decoderOnly
  | gtcEpoch t => exact (stateless_gtcEpoch t).decoderOnly
  | gtcConvert p => exact (stateless_gtcConvert p).decoderOnly
  | illegal op => exact (stateless_illegal op).decoderOnly

theorem DecoderOnly.cksAcc_eq {i : Instr} (hi : DecoderOnly i) {s t : State} (h : exec i s = .next t) : t.cksAcc = s.cksAcc := by
  obtain ⟨f, hf⟩ := hi
  rw [hf] at h
  cases h
  rfl

/-- Only RST, CKS_CLR and CKS_FEED write `CKS_ACC` (R122, R123, R240). -/
theorem cksAcc_of_not_writesCksAcc {i : Instr} {s t : State} (hi : writesCksAcc i = false) (h : exec i s = .next t) :
    t.cksAcc = s.cksAcc := by
  cases i with
  | rst | cksClr | cksFeed => cases hi
  | cksRead => cases h; rfl
  | encFrame | decPush | decTake | decStatus | decFlush | gtcDecode | gtcEpoch | gtcConvert | illegal =>
    exact (decoderOnly_of_not_usesCksAcc rfl).cksAcc_eq h

/-- Only RST, DEC_PUSH, DEC_TAKE and DEC_FLUSH write the decoder (R172, R173, R175, R240). -/
theorem dec_of_not_writesDecoder {i : Instr} {s t : State} (hi : writesDecoder i = false) (h : exec i s = .next t) :
    t.dec = s.dec := by
  cases i with
  | rst | decPush | decTake | decFlush => cases hi
  | cksClr | cksFeed | cksRead | decStatus => cases h; rfl
  | encFrame id body => exact ((stateless_encFrame id body).sameBlock h).2
  | gtcDecode p => exact ((stateless_gtcDecode p).sameBlock h).2
  | gtcEpoch t => exact ((stateless_gtcEpoch t).sameBlock h).2
  | gtcConvert p => exact ((stateless_gtcConvert p).sameBlock h).2
  | illegal op => exact ((stateless_illegal op).sameBlock h).2

/-- Settles O24: such a command is `DecoderOnly`, and another value in `CKS_ACC` is no change of the decoder. -/
theorem otherUnitsNeitherReadNorWriteCksAcc : Obligations.OtherUnitsNeitherReadNorWriteCksAcc := by
  unfold Obligations.OtherUnitsNeitherReadNorWriteCksAcc
  intro i s v hi
  obtain ⟨f, hf⟩ := decoderOnly_of_not_usesCksAcc hi
  exact ⟨_, hf s, rfl, hf (s.setCksAcc v)⟩

/-- Settles O57: the channel, the moves and the responses by `exec_local`, the block's elements by the two frames above. -/
theorem frameOfEveryCommand : Obligations.FrameOfEveryCommand := by
  unfold Obligations.FrameOfEveryCommand
  intro i s t h
  refine ⟨?_, ?_, ?_, fun hi => cksAcc_of_not_writesCksAcc hi h, fun hi => dec_of_not_writesDecoder hi h⟩
  all_goals
    obtain ⟨f, hf⟩ := exec_local i
    rw [hf] at h
    cases h
  · rfl
  · rfl
  · exact ⟨_, rfl⟩

/-- Settles O58: the encoder's and the converter's commands are `Stateless`; a reader leaves the elements it reads as they are. -/
theorem statelessUnitsAndReaders : Obligations.StatelessUnitsAndReaders := by
  unfold Obligations.StatelessUnitsAndReaders
  constructor
  · intro i hi
    have hs : Stateless i := by
      obtain ⟨id, body, rfl⟩ | ⟨p, rfl⟩ | ⟨rc, rfl⟩ | ⟨p, rfl⟩ := hi
      · exact stateless_encFrame id body
      · exact stateless_gtcDecode p
      · exact stateless_gtcEpoch rc
      · exact stateless_gtcConvert p
    obtain ⟨r, hr⟩ := hs
    exact ⟨r, fun s => ⟨_, ⟨hr s, rfl, rfl, rfl⟩, rfl, rfl⟩⟩
  · rintro i s (rfl | rfl)
    · exact ⟨_, _, _, responds_decStatus s, responds_decStatus _, ⟨rfl, rfl⟩, rfl, rfl⟩
    · exact ⟨_, _, _, responds_cksRead s, responds_cksRead _, ⟨rfl, rfl⟩, rfl, rfl⟩

/-! ### Reset (R36) -/

theorem atReset_of_eq {s : State} (hacc : s.cksAcc = 0x00#8) (hdec : s.dec = Decoder.reset) : AtReset s := by
  simp [AtReset, hacc, hdec, Decoder.reset]

/-- Settles O16: power-on reset and RST share `resetBlock`, whose fields are the table of R36. -/
theorem resetValuesOfEveryElement : Obligations.ResetValuesOfEveryElement := by
  unfold Obligations.ResetValuesOfEveryElement
  exact ⟨atReset_of_eq rfl rfl, fun s => atReset_of_eq (powerOnReset_cksAcc s) (powerOnReset_dec s),
    fun s => ⟨_, (responds_rst s).1, atReset_of_eq (resetBlock_cksAcc s) (resetBlock_dec s)⟩⟩

/-! ### The decoder invariant (R24 to R28, R31, R32) -/

/-- R27: before Complete `CAP` has room for one more byte. -/
theorem capLengthByState_le {d : DState} (h : d ≠ .complete) (dlen dcnt : BitVec 16) :
    capLengthByState d dlen.toNat dcnt.toNat ≤ 65541 := by
  have hl := dlen.isLt
  have hc := dcnt.isLt
  cases d with
  | complete => exact absurd rfl h
  | seekStart1 | seekStart2 | readLengthHi | readLengthLo => simp [capLengthByState]
  | readPayload | readChecksum | readEnd1 | readEnd2 => simp only [capLengthByState]; omega

/-- Where the queue is empty or a frame is complete, the candidate's shape and the joint size of `CAP` and `REPLAY` give the rest. -/
theorem decoderInv_of_shape {d : Decoder} (hs : CandidateShape d) (hr : ReplayInv d) (hsize : d.cap.length + d.replay.length ≤ 65542) :
    DecoderInv d := by
  have hc := candidateInv_of_shape hs
  refine ⟨hc, hr, ?_, hsize⟩
  change d.replay.length ≤ 65541
  rcases hr with hr | hr
  · simp [hr]
  · obtain ⟨-, -, -, hlen, -⟩ := hc
    simp only [CapLengthInv, hr, capLengthByState] at hlen
    omega

/-- A decoder at reset, whatever its counters: RST, power-on reset and DEC_FLUSH all leave one (R36, R175). -/
theorem decoderInv_reset (inv frm : BitVec 32) : DecoderInv { Decoder.reset with invCnt := inv, frmCnt := frm } :=
  decoderInv_of_shape ⟨rfl, rfl, rfl, rfl⟩ (.inl rfl) (Nat.zero_le _)

/-- Settles O56: nothing is captured and nothing queued. -/
theorem resetMeetsTheDecoderInvariant : Obligations.ResetMeetsTheDecoderInvariant := by
  unfold Obligations.ResetMeetsTheDecoderInvariant
  exact decoderInv_reset 0 0

/-- Draining a candidate of the right shape: a REPLAY byte leaves the queue before it can be captured, so the size never grows (R28). -/
theorem drain_decoderInv {c : Scan} (hs : CandidateShape c.dec) (hsize : c.dec.cap.length + c.dec.replay.length ≤ 65542) :
    DecoderInv (drain c).dec := by
  have keep : CandidateShape (drain c).dec ∧ (drain c).dec.cap.length + (drain c).dec.replay.length ≤ 65542 := by
    refine drain_induction (P := fun c => CandidateShape c.dec ∧ c.dec.cap.length + c.dec.replay.length ≤ 65542) ?_ c ⟨hs, hsize⟩
    intro c b rest hd hr ⟨hs, hsize⟩
    refine ⟨dstep_shape b hd hs, ?_⟩
    have := dstep_size (setReplay c rest) b hd
    rw [hr, List.length_cons] at hsize
    simp only [setReplay_cap, setReplay_replay] at this
    omega
  exact decoderInv_of_shape keep.1 (drain_drained c) keep.2

/-- Scanning one byte of DEC_PUSH: the queue is empty, so there is room for the byte (R27, R28). -/
theorem drain_dstep_decoderInv {c : Scan} (b : Byte) (hd : c.dec.dstate ≠ .complete) (h : DecoderInv c.dec) :
    DecoderInv (drain (dstep c b)).dec := by
  obtain ⟨hc, hr, -⟩ := h
  have empty : c.dec.replay = [] := hr.resolve_right hd
  refine drain_decoderInv (dstep_shape b hd (candidateShape_of_inv hc)) ?_
  obtain ⟨-, -, -, hlen, -⟩ := hc
  have room := capLengthByState_le hd c.dec.dlen c.dec.dcnt
  have grow := dstep_size c b hd
  rw [CapLengthInv] at hlen
  simp only [empty, List.length_nil] at grow
  omega

/-- DEC_PUSH keeps the invariant (R172). -/
theorem pushDecoder_decoderInv {d : Decoder} (data : Bytes) (h : DecoderInv d) : DecoderInv (pushDecoder d data) :=
  scanBytes_induction (P := fun c => DecoderInv c.dec) (fun _ b hd h => drain_dstep_decoderInv b hd h) data (startScan d) h

/-- Releasing a held frame and scanning what was queued behind it keeps the invariant (R173). -/
theorem drain_clearCandidate_decoderInv {d : Decoder} (h : DecoderInv d) :
    DecoderInv (drain (startScan (clearCandidate d))).dec := by
  obtain ⟨-, -, -, hsize⟩ := h
  refine drain_decoderInv (c := startScan (clearCandidate d)) ⟨rfl, rfl, rfl, rfl⟩ ?_
  change 0 + d.replay.length ≤ 65542
  change d.cap.length + d.replay.length ≤ 65542 at hsize
  omega

/-- Every command keeps the invariant: the four that write the decoder, and those that do not. -/
theorem exec_inv {i : Instr} {s t : State} (hs : s.Inv) (h : exec i s = .next t) : t.Inv := by
  cases i with
  | rst => cases h; exact decoderInv_reset 0 0
  | decPush data =>
    rw [exec_decPush] at h
    cases h
    exact pushDecoder_decoderInv data hs
  | decTake =>
    by_cases held : s.dec.dstate = .complete
    · rw [(responds_decTake s held).1] at h
      cases h
      exact drain_clearCandidate_decoderInv hs
    · rw [(responds_decTake_noFrame s held).1] at h
      cases h
      exact hs
  | decFlush => cases h; exact decoderInv_reset s.dec.invCnt s.dec.frmCnt
  | cksClr | cksFeed | cksRead | encFrame | decStatus | gtcDecode | gtcEpoch | gtcConvert | illegal =>
    rw [State.Inv, dec_of_not_writesDecoder rfl h]
    exact hs

/-- The HOST's turn keeps the invariant: it resets the decoder or leaves it alone. -/
theorem hostTurn_inv {s : State} (hs : s.Inv) : (hostTurn s).Inv := by
  obtain ⟨-, e⟩ | ⟨_, _, -, e⟩ | ⟨_, -, e⟩ := hostTurn_cases s <;> rw [e]
  · exact hs
  · exact hs
  · exact decoderInv_reset 0 0

/-- Settles O55: a step executes a command, whose scans keep the candidate's shape and the joint size of `CAP` and `REPLAY`, or is the
HOST's turn. -/
theorem everyStepKeepsTheDecoderInvariant : Obligations.EveryStepKeepsTheDecoderInvariant := by
  unfold Obligations.EveryStepKeepsTheDecoderInvariant
  intro s t hs h
  obtain ⟨i, rest, -, e⟩ | ⟨why, -, e⟩ := step_cases s <;> rw [e] at h
  · exact exec_inv (s := s.setChan rest) hs h
  · cases h
    exact hostTurn_inv hs

/-! ### The counters (R29, R30) -/

/-- The counters of a scan that started, not in Complete, from the counters of `d`: INV_CNT is raised by the scan's Invalid events
(R29, R168), FRM_CNT by one if the scan has completed a frame (R30, R169). -/
def CountsFrom (d : Decoder) (c : Scan) : Prop :=
  c.dec.invCnt = d.invCnt + BitVec.ofNat 32 c.ninv ∧ c.dec.frmCnt = d.frmCnt + if c.dec.dstate = .complete then 1 else 0

/-- A scan starts with nothing counted. -/
theorem countsFrom_start {d e : Decoder} (h : e.dstate ≠ .complete) (hinv : e.invCnt = d.invCnt) (hfrm : e.frmCnt = d.frmCnt) :
    CountsFrom d (startScan e) := by
  simp [CountsFrom, h, hinv, hfrm]

/-- A scanning step counts the event it makes. -/
theorem dstep_countsFrom {d : Decoder} {c : Scan} (b : Byte) (hd : c.dec.dstate ≠ .complete) (h : CountsFrom d c) :
    CountsFrom d (dstep c b) := by
  obtain ⟨hinv, hfrm⟩ := h
  rw [if_neg hd, add_zero] at hfrm
  rcases dstep_cases c b hd with e | e | e | ⟨_, _, _, _, hd', _, e⟩ | e | e <;> rw [e]
  · exact ⟨hinv, by simp [hd, hfrm]⟩
  · exact ⟨hinv, by simp [hfrm]⟩
  · exact ⟨hinv, by simp [hfrm]⟩
  · exact ⟨hinv, by simp [hd', hfrm]⟩
  · refine ⟨?_, by simp [capture, hfrm]⟩
    rw [invalid_invCnt, invalid_ninv, BitVec.ofNat_add, ← BitVec.add_assoc]
    exact congrArg (· + 1) hinv
  · exact ⟨hinv, by simp [complete, capture, hfrm]⟩

/-- Draining counts the events it makes. -/
theorem drain_countsFrom {d : Decoder} {c : Scan} (h : CountsFrom d c) : CountsFrom d (drain c) :=
  drain_induction (P := CountsFrom d) (fun c b rest hd _ h => dstep_countsFrom (c := setReplay c rest) b hd h) c h

/-- The loop of DEC_PUSH counts the events it makes. -/
theorem scanBytes_countsFrom {d : Decoder} {c : Scan} (data : Bytes) (h : CountsFrom d c) : CountsFrom d (scanBytes c data).1 :=
  scanBytes_induction (P := CountsFrom d) (fun _ b hd h => drain_countsFrom (dstep_countsFrom b hd h)) data c h

/-- DEC_PUSH's counters, from Complete, where it scans nothing, as well (R170, R172). -/
theorem pushDecoder_counts (d : Decoder) (data : Bytes) :
    (pushDecoder d data).invCnt = d.invCnt + BitVec.ofNat 32 (pushInv d data) ∧
    (pushDecoder d data).frmCnt =
      d.frmCnt + if d.dstate ≠ .complete ∧ (pushDecoder d data).dstate = .complete then 1 else 0 := by
  by_cases hd : d.dstate = .complete
  · simp [pushDecoder, pushInv, scanBytes_complete (c := startScan d) hd, hd]
  · simp only [ne_eq, hd, not_false_eq_true, true_and]
    exact scanBytes_countsFrom data (countsFrom_start hd rfl rfl)

/-- `inv` in the response of DEC_PUSH (R89). -/
theorem slice_pushResponse_inv (d : Decoder) (data : Bytes) : slice (pushResponse d data) 3 7 = beBytes 4 (pushInv d data) := by
  simp [pushResponse, slice, beBytes]

/-- Settles O48: the scans of DEC_PUSH and DEC_TAKE by `CountsFrom`, every other command by its frame. -/
theorem countersCountTheEvents : Obligations.CountersCountTheEvents := by
  unfold Obligations.CountersCountTheEvents
  rintro i s t r h -
  refine ⟨?_, ?_, ?_⟩
  · rintro (hw | rfl)
    · rw [dec_of_not_writesDecoder hw h.1]
      exact ⟨rfl, rfl⟩
    · obtain ⟨rfl, rfl⟩ := responds_unique h (responds_decFlush s)
      exact ⟨rfl, rfl⟩
  · rintro data rfl
    obtain ⟨rfl, rfl⟩ := responds_unique h (responds_decPush s data)
    exact ⟨pushInv s.dec data, slice_pushResponse_inv s.dec data, pushDecoder_counts s.dec data⟩
  · rintro rfl held
    obtain ⟨rfl, rfl⟩ := responds_unique h (responds_decTake s held)
    exact ⟨_, _, _, rfl, drain_countsFrom (countsFrom_start (by simp) rfl rfl)⟩

/-! ### A run of delivered commands (R58, R293) -/

/-- An opcode of the map sends the bytes after it to its operand layout (R87, R88). -/
theorem decode_opcodeByte (o : Opcode) (bs : Bytes) : decode (opcodeByte o :: bs) = decodeOperands o bs := by
  simp only [decode, opcodeOf_opcodeByte]

/-- The encoding of a well-formed command is read back, whatever follows it (R88, R92, R94). -/
theorem decode_encode {i : Instr} (h : i.WellFormed = true) (rest : Bytes) : decode (encode i ++ rest) = .command i rest := by
  have counted (mk : Bytes → Instr) {data : Bytes} (hf : decide (Bytes.FitsCount data) = true) :
      decodeCounted mk (encodeCounted data ++ rest) = .command (mk data) rest :=
    decodeCounted_encodeCounted mk (of_decide_eq_true hf) rest
  cases i with
  | rst => exact decode_opcodeByte .rst rest
  | cksClr => exact decode_opcodeByte .cksClr rest
  | cksFeed data => exact (decode_opcodeByte .cksFeed _).trans (counted .cksFeed h)
  | cksRead => exact decode_opcodeByte .cksRead rest
  | encFrame id body => exact (decode_opcodeByte .encFrame _).trans (counted (.encFrame id) h)
  | decPush data => exact (decode_opcodeByte .decPush _).trans (counted .decPush h)
  | decTake => exact decode_opcodeByte .decTake rest
  | decStatus => exact decode_opcodeByte .decStatus rest
  | decFlush => exact decode_opcodeByte .decFlush rest
  | gtcDecode p => exact (decode_opcodeByte .gtcDecode _).trans (counted .gtcDecode h)
  | gtcEpoch t =>
    have hlen : (timeRecordBytes t).length = 13 := by simp [timeRecordBytes]
    have hbytes : encode (.gtcEpoch t) ++ rest = opcodeByte .gtcEpoch :: (timeRecordBytes t ++ rest) := rfl
    rw [hbytes, decode_opcodeByte, decodeOperands, timeRecordAt_timeRecordBytes, ← hlen, List.drop_left, if_pos (by simp)]
  | gtcConvert p => exact (decode_opcodeByte .gtcConvert _).trans (counted .gtcConvert h)
  | illegal op =>
    have hop : opcodeOf op = none := of_decide_eq_true h
    simp only [encode, List.cons_append, List.nil_append, decode, hop]

/-- With nothing on the channel, one step delivers the HOST's next bytes (R85; log entry 2). -/
theorem step_send {s : State} {bs : Bytes} {later : List HostMove} :
    step { s with chan := [], host := .send bs :: later } = .next { s with chan := bs, host := later } := rfl

/-- A whole command alone on the channel is executed with the channel emptied (R58). -/
theorem step_encode {s : State} {i : Instr} {moves : List HostMove} (h : i.WellFormed = true) :
    step { s with chan := encode i, host := moves } = exec i { s with chan := [], host := moves } := by
  have hd := decode_encode h []
  rw [List.append_nil] at hd
  simp only [step, fetch, hd, State.setChan]

/-- The delivery of a command to an idle block and its execution are two steps (R58, R85). -/
theorem run_send_encode {s t : State} {i : Instr} {moves : List HostMove} (hi : i.WellFormed = true)
    (h : exec i { s with chan := [], host := moves } = .next t) (n : Nat) :
    Host.Core.run core (n + 2) { s with chan := [], host := .send (encode i) :: moves } = Host.Core.run core n t := by
  simp only [Host.Core.run, core, step_send, step_encode hi, h]

/-- Settles O11, by induction on the list: a command is delivered and executed, which leaves the later moves alone. -/
theorem runIsTheCommandsInOrder : Obligations.RunIsTheCommandsInOrder := by
  unfold Obligations.RunIsTheCommandsInOrder
  intro cmds
  induction cmds with
  | nil => exact fun _ _ => rfl
  | cons i cmds ih =>
    intro s hw
    obtain ⟨hi, hcmds⟩ := List.forall_mem_cons.mp hw
    obtain ⟨t, r, ht, -, hchan, hhost⟩ := exec_next i { s with chan := [], host := [] }
    have alone : { t with chan := [], host := [] } = t := by
      obtain ⟨_, _, _, _, _⟩ := t
      cases hchan
      cases hhost
      rfl
    have delivered := exec_setChanHost ht [] (cmds.map fun i => .send (encode i))
    have first : execAll (i :: cmds) { s with chan := [], host := [] } = execAll cmds t := by simp only [execAll, ht]
    rw [first, ← alone]
    exact (run_send_encode hi delivered (2 * cmds.length)).trans (ih t hcmds)

end Sys2Proof.Laws
end

section
/-! The command channel (R58, R85): what a step does with the bytes in front of the block. -/

namespace Sys2Proof.Laws

open Sys2Proof.Machine

/-- Settles O7: of the two cases of `step_cases`, the channel's bytes decode to a command only in the first. -/
theorem stepExecutesTheDecodedCommand : Obligations.StepExecutesTheDecodedCommand := by
  unfold Obligations.StepExecutesTheDecodedCommand
  intro s i rest h
  obtain ⟨j, rest', hd, hstep⟩ | ⟨why, hd, -⟩ := step_cases s
  · obtain ⟨rfl, rfl⟩ := Decoded.command.inj (hd.symm.trans h)
    exact hstep
  · cases hd.symm.trans h

end Sys2Proof.Laws
end

section
/-! The command channel's encoding (R87, R88, R92 to R96): the opcode map, the layouts, what the decoder answers, and what a step
does while the channel holds a whole command, a part of one, or a placed word. -/

namespace Sys2Proof.Laws

open Sys2Proof.Machine

/-! ### Decoding and encoding (R88, R92, R94, R95) -/

/-- Settles O1, by `decode_encode`. -/
theorem decodeOfEncodeIsTheCommand : Obligations.DecodeOfEncodeIsTheCommand := by
  unfold Obligations.DecodeOfEncodeIsTheCommand
  exact fun i rest h => decode_encode h rest

/-- What a mapped opcode and its operands were read from (R88). -/
theorem decodeOperands_eq_command {o : Opcode} {bs rest : Bytes} {i : Instr} (h : decodeOperands o bs = .command i rest) :
    i.WellFormed = true ∧ opcodeByte o :: bs = encode i ++ rest := by
  cases o with
  | rst | cksClr | cksRead | decTake | decStatus | decFlush => cases h; exact ⟨rfl, rfl⟩
  | cksFeed | decPush | gtcDecode | gtcConvert =>
    obtain ⟨data, rfl, fits, rfl⟩ := decodeCounted_eq_command h
    exact ⟨decide_eq_true fits, rfl⟩
  | encFrame =>
    cases bs with
    | nil => cases h
    | cons id tl =>
      obtain ⟨body, rfl, fits, rfl⟩ := decodeCounted_eq_command h
      exact ⟨decide_eq_true fits, rfl⟩
  | gtcEpoch =>
    simp only [decodeOperands] at h
    split at h
    next whole =>
      cases h
      refine ⟨rfl, congrArg (opcodeByte .gtcEpoch :: ·) ?_⟩
      rw [timeRecordBytes_timeRecordAt (by omega)]
      exact (List.take_append_drop 13 bs).symm
    · cases h

/-- What a command was read from: its own encoding and the bytes after it (R88, R92 to R94). -/
theorem decode_eq_command {bs rest : Bytes} {i : Instr} (h : decode bs = .command i rest) :
    i.WellFormed = true ∧ bs = encode i ++ rest := by
  cases bs with
  | nil => cases h
  | cons op bs =>
    cases hop : opcodeOf op with
    | none =>
      simp only [decode, hop, Decoded.command.injEq] at h
      obtain ⟨rfl, rfl⟩ := h
      exact ⟨decide_eq_true hop, rfl⟩
    | some o =>
      simp only [decode, hop] at h
      rw [← opcodeByte_of_opcodeOf hop]
      exact decodeOperands_eq_command h

/-- Settles O2, by `decode_eq_command`. -/
theorem decodedBytesAreTheEncoding : Obligations.DecodedBytesAreTheEncoding := by
  unfold Obligations.DecodedBytesAreTheEncoding
  exact fun _ _ _ => decode_eq_command

/-! ### The opcode map (R87, R92) -/

/-- The map lists every opcode. -/
theorem mem_opcodeMap (o : Opcode) : o ∈ opcodeMap := by cases o <;> decide

/-- The illegal bytes are those no row of the map holds. -/
theorem opcodeOf_eq_none_iff_not_mem (b : Byte) : opcodeOf b = none ↔ b ∉ opcodeMap.map opcodeByte := by
  simp only [opcodeOf_eq_none, List.mem_map, mem_opcodeMap, true_and, not_exists, ne_eq]

/-- Settles O3: the map by its definition, the bytes outside it and the rows read back by the laws of `opcodeOf`. -/
theorem opcodeMapHasTheseTwelveValues : Obligations.OpcodeMapHasTheseTwelveValues := by
  unfold Obligations.OpcodeMapHasTheseTwelveValues
  exact ⟨rfl, rfl, opcodeOf_eq_none_iff_not_mem, opcodeOf_opcodeByte⟩

/-- The illegal bytes as numbers: the gaps between the twelve values. -/
theorem opcodeOf_eq_none_iff_range (op : Byte) : opcodeOf op = none ↔
    op.toNat = 0x00 ∨ (0x02 ≤ op.toNat ∧ op.toNat ≤ 0x0F) ∨ (0x13 ≤ op.toNat ∧ op.toNat ≤ 0x1F) ∨
    (0x21 ≤ op.toNat ∧ op.toNat ≤ 0x2F) ∨ (0x34 ≤ op.toNat ∧ op.toNat ≤ 0x3F) ∨ 0x43 ≤ op.toNat := by
  rw [opcodeOf_eq_none_iff_not_mem]
  simp only [opcodeMap, opcodeByte, List.map_cons, List.map_nil, List.mem_cons, List.not_mem_nil, or_false, ← BitVec.toNat_inj,
    BitVec.toNat_ofNat]
  omega

/-- Settles O4: the ranges are the gaps of the map, and an illegal opcode is read as one byte and answered by an error. -/
theorem illegalOpcodesRespondIllegal : Obligations.IllegalOpcodesRespondIllegal := by
  unfold Obligations.IllegalOpcodesRespondIllegal
  refine ⟨opcodeOf_eq_none_iff_range, by decide +kernel, fun op rest s h => ⟨?_, _, responds_illegal s op, rfl, rfl⟩⟩
  exact decode_encode (i := .illegal op) (decide_eq_true h) rest

/-! ### Layouts (R88) -/

/-- A count that fits is the value of its two bytes (R53, R88). -/
theorem be_beBytes_count {n : Nat} (h : n ≤ 65535) : be (beBytes 2 n) = n := by
  rw [be_beBytes, Nat.mod_eq_of_lt (by omega)]

/-- A word that fits its bytes is the value of its big-endian bytes (R53, R88). -/
theorem be_beBytes_toNat {w n : Nat} (v : BitVec w) (h : 2 ^ w ≤ 256 ^ n) : be (beBytes n v.toNat) = v.toNat := by
  rw [be_beBytes, Nat.mod_eq_of_lt (lt_of_lt_of_le v.isLt h)]

/-- Settles O5: the layouts are `encode`'s equations, and the fields are the values of their bytes. -/
theorem commandLayoutsAreTheTable : Obligations.CommandLayoutsAreTheTable := by
  unfold Obligations.CommandLayoutsAreTheTable
  intro data id t
  refine ⟨rfl, rfl, rfl, rfl, rfl, rfl, fun fits => ⟨_, _, ?_, rfl, rfl, rfl, rfl, rfl⟩, beBytes 4 t.tow.toNat, beBytes 4 t.stow.toNat,
    beBytes 2 t.wn.toNat, beBytes_length _ _, beBytes_length _ _, beBytes_length _ _, be_beBytes_toNat _ (by norm_num),
    be_beBytes_toNat _ (by norm_num), be_beBytes_toNat _ (by norm_num), rfl⟩
  exact (be_beBytes_count fits).symm.trans (be_pair _ _)

/-- Settles O6: five closed words, each decoded by evaluation. -/
theorem specVectorWordsDecode : Obligations.SpecVectorWordsDecode := by
  unfold Obligations.SpecVectorWordsDecode
  decide

/-! ### The step (R85, R96, R256) -/

/-- No encoding is the beginning of another: with bytes missing, the block waits (R96). -/
theorem decode_part_waits {i : Instr} {p q : Bytes} (hi : i.WellFormed = true) (h : encode i = p ++ q) (hq : q ≠ []) :
    ∃ why, decode p = .waiting why := by
  cases hp : decode p with
  | waiting why => exact ⟨why, rfl⟩
  | command j rest =>
    obtain ⟨hj, rfl⟩ := decode_eq_command hp
    have whole : decode (encode i) = .command i [] := by simpa only [List.append_nil] using decode_encode hi []
    rw [h, List.append_assoc, decode_encode hj] at whole
    exact absurd (List.append_eq_nil_iff.mp (Decoded.command.inj whole).2).2 hq

/-- While the block waits, the step is the HOST's turn. -/
theorem step_of_waiting {s : State} {why : Missing} (h : decode s.chan = .waiting why) : step s = .next (hostTurn s) := by
  simp only [step, fetch, h]

/-- Two steps are the step after the first one's next state. -/
theorem run_two {s t : State} (h : step s = .next t) : Host.Core.run core 2 s = step t := by
  simp only [Host.Core.run, core, h]
  cases step t <;> rfl

/-- Settles O8: a part of a command makes the block wait, and with the rest delivered the channel holds the whole encoding. -/
theorem partOfACommandHasNoEffect : Obligations.PartOfACommandHasNoEffect := by
  unfold Obligations.PartOfACommandHasNoEffect
  rintro s i p q hi h hq rfl
  obtain ⟨why, waits⟩ := decode_part_waits hi h hq
  have hstep := step_of_waiting waits
  have send (bs : Bytes) (later : List HostMove) (hs : s.host = .send bs :: later) :
      step s = .next { s with chan := s.chan ++ bs, host := later } := by
    simp only [hstep, hostTurn, hs]
  refine ⟨fun hs => ?_, send, fun later hs => ?_⟩
  · simp only [hstep, hostTurn, hs]
  · rw [run_two (send q later hs), ← h]
    exact step_encode hi

/-- Settles O9: a step executes a command, which completes with one response, or is the HOST's turn, which adds none. -/
theorem everyStepAnswersNext : Obligations.EveryStepAnswersNext := by
  unfold Obligations.EveryStepAnswersNext
  intro s
  obtain ⟨i, rest, hd, hstep⟩ | ⟨why, hd, hstep⟩ := step_cases s
  · obtain ⟨t, r, hexec, hresp, -, -⟩ := exec_next i (s.setChan rest)
    refine ⟨t, hstep.trans hexec, fun ⟨why, hw⟩ => ?_, fun _ _ _ => ⟨r, hresp⟩⟩
    cases hd.symm.trans hw
  · refine ⟨_, hstep, fun _ => ?_, fun _ _ hc => ?_⟩
    · obtain ⟨-, e⟩ | ⟨_, _, -, e⟩ | ⟨_, -, e⟩ := hostTurn_cases s <;> rw [e]
      rfl
    · cases hd.symm.trans hc

/-- The bytes placed for a table word are the encoding of the command it stands for (R85, R94; log entry 4). -/
theorem tableWordBytes_eq_encode {nbits w : Nat} {i : Instr} (h : decodeTableWord nbits w = some i) :
    i.WellFormed = true ∧ tableWordBytes nbits w = encode i := by
  unfold decodeTableWord at h
  split at h
  next j rest hd =>
    cases h
    obtain ⟨hi, stream⟩ := decode_eq_command hd
    refine ⟨hi, ?_⟩
    simp only [tableWordBytes, hd]
    rw [stream, List.length_append, Nat.add_sub_cancel]
    exact List.take_left
  · cases h

/-- Settles O10: the placed bytes are an encoding, which the next step reads back and consumes. -/
theorem placedWordIsExecutedNext : Obligations.PlacedWordIsExecutedNext := by
  unfold Obligations.PlacedWordIsExecutedNext
  intro s nbits w i h
  obtain ⟨hi, bytes⟩ := tableWordBytes_eq_encode h
  have hd : decode (s.withFetchWord nbits w).chan = .command i s.chan := by
    rw [State.withFetchWord, setChan_chan, bytes]
    exact decode_encode hi s.chan
  exact stepExecutesTheDecodedCommand _ i s.chan hd

end Sys2Proof.Laws
end

section
/-! Responses (R86, R89, R90): every command's one response, an OK response of the length R89 gives it or one error status byte, and
what DEC_STATUS reports. -/

namespace Sys2Proof.Laws

open Sys2Proof.Machine

/-! ### The lengths of the result fields (R70, R89) -/

theorem frameOf_length (payload : Bytes) : (frameOf payload).length = payload.length + 7 := by
  simp only [frameOf, List.length_append, List.length_cons, List.length_nil, beBytes_length]
  omega

theorem pushResponse_length (d : Decoder) (data : Bytes) : (pushResponse d data).length = 8 := by simp [pushResponse]

theorem statusFields_length (d : Decoder) : (statusFields d).length = 20 := by simp [statusFields]

theorem timeRecordBytes_length (t : GpsTime) : (timeRecordBytes t).length = 13 := by simp [timeRecordBytes]

theorem epochFields_length (e : Epoch) : (epochFields e).length = 13 := by simp [epochFields]

/-- A held frame is whole, so its payload and its checksum byte are (R27, R31). -/
theorem heldFrameFields_length {d : Decoder} (h : CapLengthInv d) (held : d.dstate = .complete) :
    (heldFrameFields d).length = d.dlen.toNat + 3 := by
  have hcap : d.cap.length = 7 + d.dlen.toNat := by simpa only [CapLengthInv, held, capLengthByState] using h
  rw [heldFrameFields, List.length_append, List.length_append, beBytes_length, slice_length _ _ _ (by omega),
    slice_length _ _ _ (by omega)]
  omega

/-! ### One response per command (R86, R89, R90) -/

/-- A response R90 allows: status OK and fields, of the length R89 gives `i` wherever the decoder invariant holds, or one error status
byte. -/
def Answer (i : Instr) (s : State) (r : Bytes) : Prop :=
  (∃ fields, r = 0x00#8 :: fields ∧ (s.Inv → r.length = okResponseLength i s.dec.dlen.toNat)) ∨
    r = [0x01#8] ∨ r = [0x02#8] ∨ r = [0x03#8] ∨ r = [0x04#8]

/-- An OK response of the right length. -/
theorem answer_ok {i : Instr} {s : State} {fields : Bytes}
    (h : s.Inv → (0x00#8 :: fields).length = okResponseLength i s.dec.dlen.toNat) : Answer i s (0x00#8 :: fields) := .inl ⟨_, rfl, h⟩

/-- Every command's response is such an answer. -/
theorem exec_answers (i : Instr) (s : State) : ∃ t r, Responds i s t r ∧ Answer i s r := by
  cases i with
  | rst => exact ⟨_, _, responds_rst s, answer_ok fun _ => rfl⟩
  | cksClr => exact ⟨_, _, responds_cksClr s, answer_ok fun _ => rfl⟩
  | cksFeed data => exact ⟨_, _, responds_cksFeed s data, answer_ok fun _ => rfl⟩
  | cksRead => exact ⟨_, _, responds_cksRead s, answer_ok fun _ => rfl⟩
  | encFrame id body =>
    by_cases h : body.length ≤ 65534
    · refine ⟨_, _, responds_encFrame s body id h, answer_ok fun _ => ?_⟩
      simp [frameOf_length, okResponseLength]
    · exact ⟨_, _, responds_encFrame_badLen s body id (by omega), .inr (.inr (.inl rfl))⟩
  | decPush data => exact ⟨_, _, responds_decPush s data, answer_ok fun _ => pushResponse_length s.dec data⟩
  | decTake =>
    by_cases held : s.dec.dstate = .complete
    · refine ⟨_, _, responds_decTake s held, answer_ok fun ⟨⟨_, _, _, hcap, _⟩, _⟩ => ?_⟩
      simp [heldFrameFields_length hcap held, okResponseLength]
    · exact ⟨_, _, responds_decTake_noFrame s held, .inr (.inr (.inr (.inr rfl)))⟩
  | decStatus => exact ⟨_, _, responds_decStatus s, answer_ok fun _ => by simp [statusFields_length, okResponseLength]⟩
  | decFlush => exact ⟨_, _, responds_decFlush s, answer_ok fun _ => rfl⟩
  | gtcDecode p =>
    by_cases h : 29 ≤ p.length
    · exact ⟨_, _, responds_gtcDecode s p h, answer_ok fun _ => by simp [timeRecordBytes_length, okResponseLength]⟩
    · exact ⟨_, _, responds_gtcDecode_truncated s p (by omega), .inr (.inr (.inr (.inl rfl)))⟩
  | gtcEpoch t => exact ⟨_, _, responds_gtcEpoch s t, answer_ok fun _ => by simp [epochFields_length, okResponseLength]⟩
  | gtcConvert p =>
    by_cases h : 29 ≤ p.length
    · refine ⟨_, _, responds_gtcConvert s p h, answer_ok fun _ => ?_⟩
      simp [timeRecordBytes_length, epochFields_length, okResponseLength]
    · exact ⟨_, _, responds_gtcConvert_truncated s p (by omega), .inr (.inr (.inr (.inl rfl)))⟩
  | illegal op => exact ⟨_, _, responds_illegal s op, .inr (.inl rfl)⟩

/-- Settles O12: an answer is one of the five forms. -/
theorem everyCommandGetsOneResponse : Obligations.EveryCommandGetsOneResponse := by
  unfold Obligations.EveryCommandGetsOneResponse
  intro i s
  obtain ⟨t, r, h, ok | error⟩ := exec_answers i s
  · obtain ⟨fields, rfl, -⟩ := ok
    exact ⟨t, _, h, .inl ⟨fields, rfl⟩⟩
  · exact ⟨t, r, h, .inr error⟩

/-- Settles O15: the one response is an answer, and one that begins with 0 is an OK response. -/
theorem okResponsesHaveTheTableLengths : Obligations.OkResponsesHaveTheTableLengths := by
  unfold Obligations.OkResponsesHaveTheTableLengths
  intro i s t r hinv h hok
  obtain ⟨t', r', h', answer⟩ := exec_answers i s
  obtain ⟨rfl, rfl⟩ := responds_unique h h'
  obtain ⟨fields, -, hlen⟩ | rfl | rfl | rfl | rfl := answer
  · exact hlen hinv
  all_goals cases hok

/-! ### DEC_STATUS (R23, R174) -/

theorem dstateCode_le (d : DState) : (dstateCode d).toNat ≤ 8 := by cases d <;> decide

/-- Settles O39: the fields are `statusFields`, and the bounds are R28's. -/
theorem decStatusReportsTheDecoder : Obligations.DecStatusReportsTheDecoder := by
  unfold Obligations.DecStatusReportsTheDecoder
  refine ⟨rfl, rfl, dstateCode_le, fun s => ⟨s.addResponse (0x00#8 :: statusFields s.dec), ⟨rfl, rfl⟩, responds_decStatus s⟩, ?_, _,
    responds_decStatus State.reset⟩
  rintro s ⟨-, -, hreplay, hsize⟩
  exact ⟨le_trans (Nat.le_add_right _ _) hsize, hreplay⟩

/-! ### The checksum and the outbound commands as pseudo-commands (R77, R79, R80, R100 to R103) -/

/-- Settles O23: CKS_FEED adds to the accumulator CKS_CLR has cleared. -/
theorem cksCalcIsTheChecksumFunction : Obligations.CksCalcIsTheChecksumFunction := by
  unfold Obligations.CksCalcIsTheChecksumFunction
  intro p data s
  refine ⟨rfl, _, rfl, ?_⟩
  simp [statusCode]

/-- A program of one ENC_FRAME whose body fits adds the frame as its response and changes no element of the block (R140). -/
theorem execAll_encFrame (id : Byte) {body : Bytes} (h : body.length ≤ 65534) (s : State) :
    ∃ t, execAll [.encFrame id body] s = .next t ∧ SameBlock s t ∧
      t.responses = s.responses ++ [0x00#8 :: frameOf (id :: body)] := by
  obtain ⟨hexec, hresp, -, -⟩ := responds_encFrame s body id h
  exact ⟨s.addResponse (0x00#8 :: frameOf (id :: body)), by simp only [execAll, hexec], ⟨rfl, rfl⟩, hresp⟩

/-- The frame of a payload of two bytes (R70). -/
theorem frameOf_pair (a b : Byte) : frameOf [a, b] = [0xA0#8, 0xA1#8, 0x00#8, 0x02#8, a, b, a ^^^ b, 0x0D#8, 0x0A#8] := by
  simp [frameOf, beBytes, cks_cons]

/-- Settles O27: the time query is the frame of `[0x64, 0x20]`. -/
theorem timeQueryFrame : Obligations.TimeQueryFrame := by
  unfold Obligations.TimeQueryFrame
  exact fun p s => ⟨rfl, execAll_encFrame 0x64#8 (body := [0x20#8]) (by decide) s⟩

/-- Settles O28: both frames have a payload of two bytes. -/
theorem ackAndNackFrames : Obligations.AckAndNackFrames := by
  unfold Obligations.AckAndNackFrames
  intro p id s
  have frame (kind : Byte) := execAll_encFrame kind (body := [id]) (by simp) s
  simp only [frameOf_pair] at frame
  exact ⟨rfl, rfl, frame 0x83#8, frame 0x84#8, rfl, rfl⟩

/-- Settles O29: the body is 14 bytes whatever the OPEN parameters are. -/
theorem rebootFrame : Obligations.RebootFrame := by
  unfold Obligations.RebootFrame
  intro p mode year month day hour minute second s
  have hlen : (rebootBody p mode year month day hour minute second).length = 14 := by simp [rebootBody]
  obtain ⟨t, hexec, hblock, hresp⟩ := execAll_encFrame 0x01#8 (body := rebootBody p mode year month day hour minute second) (by omega) s
  refine ⟨t, 0x01#8 :: rebootBody p mode year month day hour minute second, ?_, congrArg Nat.succ hlen, rfl, hexec, hblock, ?_⟩
  · rw [rebootBody_eq]
    rfl
  · rw [hresp, frameOf, List.length_cons, hlen]
    rfl

end Sys2Proof.Laws
end

section
/-! A whole frame, pushed in one piece (R70, R74, R75, R81): its header, its payload and its trailer raise no Invalid event, so no byte is
ever queued. -/

namespace Sys2Proof.Laws

open Sys2Proof.Machine

/-- A length of two bytes, high byte first, as DLEN collects it (R163, R164). -/
theorem dlen_of_pair (hi lo : Byte) : BitVec.ofNat 16 (hi.toNat * 256) + BitVec.ofNat 16 lo.toNat = BitVec.ofNat 16 (be [hi, lo]) := by
  rw [be_pair, BitVec.ofNat_add]

/-- The four header bytes start a candidate with that length and nothing read of its payload (R161 to R164). -/
theorem scanBytes_header {c : Scan} (hi lo : Byte) (h : c.dec.dstate = .seekStart1) (hr : c.dec.replay = []) :
    scanBytes c [start1, start2, hi, lo] = ({ c with dec :=
      { c.dec with
        dstate := if BitVec.ofNat 16 (be [hi, lo]) = 0 then .readChecksum else .readPayload
        dlen := BitVec.ofNat 16 (be [hi, lo])
        dcnt := 0
        dcs := 0
        cap := [start1, start2, hi, lo] } }, 4) := by
  obtain ⟨⟨ds, dlen, dcnt, dcs, cap, rp, ic, fc⟩, ninv⟩ := c
  simp only at h hr
  subst h hr
  have s1 : dstep ⟨⟨.seekStart1, dlen, dcnt, dcs, cap, [], ic, fc⟩, ninv⟩ start1 =
    ⟨⟨.seekStart2, dlen, dcnt, dcs, [start1], [], ic, fc⟩, ninv⟩ := rfl
  have s2 : dstep ⟨⟨.seekStart2, dlen, dcnt, dcs, [start1], [], ic, fc⟩, ninv⟩ start2 =
    ⟨⟨.readLengthHi, dlen, dcnt, dcs, [start1, start2], [], ic, fc⟩, ninv⟩ := rfl
  have s3 : dstep ⟨⟨.readLengthHi, dlen, dcnt, dcs, [start1, start2], [], ic, fc⟩, ninv⟩ hi =
    ⟨⟨.readLengthLo, BitVec.ofNat 16 (hi.toNat * 256), dcnt, dcs, [start1, start2, hi], [], ic, fc⟩, ninv⟩ := rfl
  have s4 : dstep ⟨⟨.readLengthLo, BitVec.ofNat 16 (hi.toNat * 256), dcnt, dcs, [start1, start2, hi], [], ic, fc⟩, ninv⟩ lo =
      ⟨⟨if BitVec.ofNat 16 (be [hi, lo]) = 0 then .readChecksum else .readPayload, BitVec.ofNat 16 (be [hi, lo]), 0, 0,
        [start1, start2, hi, lo], [], ic, fc⟩, ninv⟩ := by
    rw [dstep_readLengthLo lo rfl, ← dlen_of_pair]
    simp only [dstepReadLengthLo, goto, capture]
    split <;> rfl
  rw [scanBytes_cons_of_empty (by simp) (by rw [s1]), s1, scanBytes_cons_of_empty (by simp) (by rw [s2]), s2,
    scanBytes_cons_of_empty (by simp) (by rw [s3]), s3, scanBytes_cons_of_empty (by simp) (by rw [s4]), s4]
  rfl

/-- The three trailer bytes complete the candidate when the first is the running checksum (R166, R167, R169). -/
theorem scanBytes_trailer {c : Scan} (h : c.dec.dstate = .readChecksum) (hr : c.dec.replay = []) :
    scanBytes c [c.dec.dcs, end1, end2] = ({ c with dec :=
      { c.dec with
        dstate := .complete
        cap := c.dec.cap ++ [c.dec.dcs, end1, end2]
        frmCnt := c.dec.frmCnt + 1 } }, 3) := by
  obtain ⟨⟨ds, dlen, dcnt, dcs, cap, rp, ic, fc⟩, ninv⟩ := c
  simp only at h hr
  subst h hr
  have s1 : dstep ⟨⟨.readChecksum, dlen, dcnt, dcs, cap, [], ic, fc⟩, ninv⟩ dcs =
    ⟨⟨.readEnd1, dlen, dcnt, dcs, cap ++ [dcs], [], ic, fc⟩, ninv⟩ := if_pos rfl
  have s2 : dstep ⟨⟨.readEnd1, dlen, dcnt, dcs, cap ++ [dcs], [], ic, fc⟩, ninv⟩ end1 =
    ⟨⟨.readEnd2, dlen, dcnt, dcs, cap ++ [dcs] ++ [end1], [], ic, fc⟩, ninv⟩ := rfl
  have s3 : dstep ⟨⟨.readEnd2, dlen, dcnt, dcs, cap ++ [dcs] ++ [end1], [], ic, fc⟩, ninv⟩ end2 =
    ⟨⟨.complete, dlen, dcnt, dcs, cap ++ [dcs] ++ [end1] ++ [end2], [], ic, fc + 1⟩, ninv⟩ := rfl
  rw [scanBytes_cons_of_empty (by simp) (by rw [s1]), s1, scanBytes_cons_of_empty (by simp) (by rw [s2]), s2,
    scanBytes_cons_of_empty (by simp) (by rw [s3]), s3]
  simp

/-- A payload of exactly the declared length, which may be 0, leads from the header to the checksum byte (R164, R165). -/
theorem scanBytes_whole_payload {c : Scan} {p : Bytes} (h : c.dec.dstate = if c.dec.dlen = 0 then .readChecksum else .readPayload)
    (hr : c.dec.replay = []) (hcnt : c.dec.dcnt = 0) (hcs : c.dec.dcs = 0) (hp : p.length = c.dec.dlen.toNat) :
    scanBytes c p = ({ c with dec :=
      { c.dec with
        dstate := .readChecksum
        dcnt := c.dec.dlen
        dcs := cks p
        cap := c.dec.cap ++ p } }, p.length) := by
  obtain ⟨⟨ds, dlen, dcnt, dcs, cap, rp, ic, fc⟩, ninv⟩ := c
  simp only at h hr hcnt hcs hp
  subst hr hcnt hcs
  by_cases zero : dlen = 0
  · obtain rfl : p = [] := List.length_eq_zero_iff.mp (by rw [hp, zero]; rfl)
    subst zero
    rw [h]
    simp
  · rw [if_neg zero] at h
    have pos : 0 < dlen.toNat := Nat.pos_of_ne_zero fun hz => zero (BitVec.eq_of_toNat_eq hz)
    rw [scanBytes_payload p _ h rfl (by simpa using pos) (by simp [hp])]
    simp [hp]

/-- A payload whose length fits the length field is decoded from its frame, whatever came before it (R70, R74, R75, R81). -/
theorem scanBytes_frameOf {c : Scan} {payload : Bytes} (hp : payload.length ≤ 65535) (h : c.dec.dstate = .seekStart1)
    (hr : c.dec.replay = []) :
    scanBytes c (frameOf payload) = ({ c with dec :=
      { c.dec with
        dstate := .complete
        dlen := BitVec.ofNat 16 payload.length
        dcnt := BitVec.ofNat 16 payload.length
        dcs := cks payload
        cap := frameOf payload
        frmCnt := c.dec.frmCnt + 1 } }, payload.length + 7) := by
  obtain ⟨hi, lo, hfield⟩ : ∃ hi lo, beBytes 2 payload.length = [hi, lo] := ⟨_, _, rfl⟩
  have hlen : be [hi, lo] = payload.length := by rw [← hfield, be_beBytes_count hp]
  have hframe : frameOf payload = [start1, start2, hi, lo] ++ (payload ++ [cks payload, end1, end2]) := by
    simp [frameOf, hfield]
  have header := scanBytes_header hi lo h hr
  have body := scanBytes_whole_payload (c := (scanBytes c [start1, start2, hi, lo]).1) (p := payload)
    (by rw [header]) (by rw [header]; exact hr) (by rw [header]) (by rw [header]) (by rw [header, hlen]; simp; omega)
  rw [header] at body
  have trailer := scanBytes_trailer (c := (scanBytes (scanBytes c [start1, start2, hi, lo]).1 payload).1)
    (by rw [header, body]) (by rw [header, body]; exact hr)
  rw [header, body] at trailer
  rw [hframe, scanBytes_append _ _ c (by rw [header]; rfl), header, scanBytes_append _ _ _ (by rw [body]), body, trailer]
  simp [hlen]
  omega

/-- Settles O46: a push is a scan that starts with no Invalid event counted. -/
theorem everyPayloadDecodes : Obligations.EveryPayloadDecodes := by
  unfold Obligations.EveryPayloadDecodes
  intro d payload hp h hr
  have hscan := scanBytes_frameOf (c := startScan d) hp h hr
  refine ⟨frameOf_length payload, ?_, ?_, ?_⟩
  · simp only [pushAccepted, hscan]
  · simp only [pushInv, hscan, startScan_ninv]
  · simp only [pushDecoder, hscan, startScan_dec]

end Sys2Proof.Laws
end

section
/-! Program text (R98, R99): what the assembler accepts is legal commands in their encodings, line by line, and every legal command has a
line that is read back as its tokens and they as the command. -/

namespace Sys2Proof.Laws

open Sys2Proof.Machine

/-! ### Accepted commands are well formed and legal (R99) -/

/-- A command program text can stand for: it has an encoding and is no illegal opcode. -/
def Legal (i : Instr) : Prop := i.WellFormed = true ∧ ∀ op, i ≠ .illegal op

/-- If the assembler accepts, every command it gives is legal. -/
def LegalIfDone (x : Asm (List Instr)) : Prop := ∀ cmds, x = .done cmds → ∀ i ∈ cmds, Legal i

theorem legalIfDone_refused (e : AsmError) : LegalIfDone (.refused e) := fun _ h => by cases h

theorem legalIfDone_done {cmds : List Instr} (h : ∀ i ∈ cmds, Legal i) : LegalIfDone (.done cmds) := fun _ e => by
  cases e
  exact h

theorem legalIfDone_singleton {i : Instr} (h : Legal i) : LegalIfDone (.done [i]) :=
  legalIfDone_done (List.forall_mem_singleton.mpr h)

theorem legalIfDone_ite {c : Prop} [Decidable c] {x y : Asm (List Instr)} (hx : LegalIfDone x) (hy : LegalIfDone y) :
    LegalIfDone (if c then x else y) := by
  split
  · exact hx
  · exact hy

theorem legalIfDone_bind {α : Type} {x : Asm α} {f : α → Asm (List Instr)} (h : ∀ a, x = .done a → LegalIfDone (f a)) :
    LegalIfDone (x.bind f) := fun cmds e => by
  obtain ⟨a, hx, hf⟩ := bind_eq_done.mp e
  exact h a hx cmds hf

/-- A mnemonic without operands. -/
theorem legalIfDone_noOperands {i : Instr} (h : Legal i) (toks : List Tok) : LegalIfDone (noOperands [i] toks) :=
  legalIfDone_ite (legalIfDone_singleton h) (legalIfDone_refused _)

/-- A mnemonic that reads a byte list, whose length fits the count field (R99). -/
theorem legalIfDone_byteList {f : Bytes → List Instr} (h : ∀ d, d.length ≤ maxLen → ∀ i ∈ f d, Legal i) (toks : List Tok) :
    LegalIfDone ((byteList toks).bind fun d => .done (f d)) :=
  legalIfDone_bind fun d hd => legalIfDone_done (h d (byteList_eq_done hd).1)

theorem legal_cksFeed {data : Bytes} (h : data.length ≤ maxLen) : Legal (.cksFeed data) := ⟨decide_eq_true h, nofun⟩

theorem legal_encFrame (id : Byte) {body : Bytes} (h : body.length ≤ maxLen) : Legal (.encFrame id body) :=
  ⟨decide_eq_true h, nofun⟩

theorem legal_of_encFrameOperands {toks : List Tok} {i : Instr} (h : encFrameOperands toks = .done i) : Legal i := by
  unfold encFrameOperands at h
  split at h
  · simp only [bind_eq_done, Asm.done.injEq] at h
    obtain ⟨id, -, body, hbody, rfl⟩ := h
    exact legal_encFrame id (byteList_eq_done hbody).1
  · cases h

/-- REBOOT's operands are those of a reboot pseudo-command, whose body is 14 bytes (R102). -/
theorem legal_of_rebootOperands (p : RebootParams) {toks : List Tok} {q : Pseudo} (h : rebootOperands toks = .done q) :
    ∀ i ∈ expand p q, Legal i := by
  unfold rebootOperands at h
  split at h
  · split at h
    · cases h
    · split at h
      · simp only [bind_eq_done, Asm.done.injEq] at h
        obtain ⟨month, -, day, -, hour, -, minute, -, second, -, rfl⟩ := h
        simp only [expand, List.mem_singleton, forall_eq]
        exact legal_encFrame _ (by simp [rebootBody, maxLen])
      · cases h
  · cases h

/-- The commands of a line are legal: one case per mnemonic, in the order of `assembleTokens` (R87, R100 to R103). -/
theorem assembleTokens_legal (p : RebootParams) (toks : List Tok) : LegalIfDone (assembleTokens p toks) := by
  unfold assembleTokens
  split
  · exact legalIfDone_done nofun
  next m ops =>
    have plain (i : Instr) (hi : Legal i) := legalIfDone_noOperands hi ops
    have list (mk : Bytes → Instr) (hmk : ∀ d, d.length ≤ maxLen → Legal (mk d)) :=
      legalIfDone_byteList (f := fun d => [mk d]) (fun d hd => List.forall_mem_singleton.mpr (hmk d hd)) ops
    have encFrame := legalIfDone_bind (f := fun i => .done [i]) fun i (hi : encFrameOperands ops = .done i) =>
      legalIfDone_singleton (legal_of_encFrameOperands hi)
    have epoch := legalIfDone_bind (x := record ops) (f := fun t => .done [.gtcEpoch t]) fun t _ =>
      legalIfDone_singleton ⟨rfl, nofun⟩
    have calculate := legalIfDone_byteList (f := fun d => [.cksClr, .cksFeed d]) (fun d hd =>
      List.forall_mem_cons.mpr ⟨⟨rfl, nofun⟩, List.forall_mem_singleton.mpr (legal_cksFeed hd)⟩) ops
    have reboot := legalIfDone_bind (f := fun q => .done (expand p q)) fun q (hq : rebootOperands ops = .done q) =>
      legalIfDone_done (legal_of_rebootOperands p hq)
    have reply (kind : Byte) := legalIfDone_bind (x := oneByte ops) (f := fun b => .done [.encFrame kind [b]]) fun b _ =>
      legalIfDone_singleton (legal_encFrame kind (body := [b]) (by simp [maxLen]))
    refine legalIfDone_ite (plain .rst ⟨rfl, nofun⟩) ?_
    refine legalIfDone_ite (plain .cksClr ⟨rfl, nofun⟩) ?_
    refine legalIfDone_ite (list .cksFeed fun _ => legal_cksFeed) ?_
    refine legalIfDone_ite (plain .cksRead ⟨rfl, nofun⟩) ?_
    refine legalIfDone_ite encFrame ?_
    refine legalIfDone_ite (list .decPush fun _ hd => ⟨decide_eq_true hd, nofun⟩) ?_
    refine legalIfDone_ite (plain .decTake ⟨rfl, nofun⟩) ?_
    refine legalIfDone_ite (plain .decStatus ⟨rfl, nofun⟩) ?_
    refine legalIfDone_ite (plain .decFlush ⟨rfl, nofun⟩) ?_
    refine legalIfDone_ite (list .gtcDecode fun _ hd => ⟨decide_eq_true hd, nofun⟩) ?_
    refine legalIfDone_ite epoch ?_
    refine legalIfDone_ite (list .gtcConvert fun _ hd => ⟨decide_eq_true hd, nofun⟩) ?_
    refine legalIfDone_ite (plain (.encFrame 0x64#8 [0x20#8]) ⟨rfl, nofun⟩) ?_
    refine legalIfDone_ite calculate ?_
    refine legalIfDone_ite reboot ?_
    refine legalIfDone_ite (reply 0x83#8) ?_
    exact legalIfDone_ite (reply 0x84#8) (legalIfDone_refused _)
  · exact legalIfDone_refused _

/-- The commands of a program are those of its lines. -/
theorem assembleLines_legal (p : RebootParams) (lines : List (List Char)) : LegalIfDone (assembleLines p lines) := by
  induction lines with
  | nil => exact legalIfDone_done (by simp)
  | cons line lines ih =>
    refine legalIfDone_bind fun is his => legalIfDone_bind fun more hmore => legalIfDone_done fun i hi => ?_
    obtain ⟨toks, -, htoks⟩ := bind_eq_done.mp his
    exact (List.mem_append.mp hi).elim (assembleTokens_legal p toks is htoks i) (ih more hmore i)

/-! ### Lines -/

/-- A line feed ends a line. -/
theorem linesOf_line {line : List Char} (h : '\n' ∉ line) (rest : List Char) :
    linesOf (line ++ '\n' :: rest) = line :: linesOf rest := by
  induction line with
  | nil => simp [linesOf]
  | cons c line ih =>
    simp only [List.mem_cons, not_or] at h
    simp only [List.cons_append, linesOf, if_neg (Ne.symm h.1), ih h.2]

theorem assembleProgram_line (p : RebootParams) {line : List Char} (h : '\n' ∉ line) (rest : List Char) :
    assembleProgram p (line ++ '\n' :: rest) =
      (assembleLine p line).bind fun is => (assembleProgram p rest).bind fun more => .done (is ++ more) := by
  rw [assembleProgram, linesOf_line h]
  rfl

/-- A comment says nothing (R98). -/
theorem lexLine_comment (line comment : List Char) : ∀ pending, lexLine pending (line ++ ';' :: comment) = lexLine pending line := by
  induction line with
  | nil => intro pending; simp [lexLine]
  | cons c line ih =>
    intro pending
    simp only [List.cons_append, lexLine, ih]

/-! ### Numbers (R98) -/

/-- Digits below 10 and 16 are read back. -/
theorem digitValue_digitChar_hex : ∀ d < 16, digitValue 16 (digitChar d) = some d := by decide
theorem digitValue_digitChar_dec : ∀ d < 10, digitValue 10 (digitChar d) = some d := by decide

theorem digitsOf_mem {base : Nat} (hb : 0 < base) {P : Char → Prop} (h : ∀ d < base, P (digitChar d)) (k n : Nat) :
    ∀ c ∈ digitsOf base k n, P c := by
  induction k with
  | zero => simp [digitsOf]
  | succ k ih =>
    simp only [digitsOf, List.forall_mem_cons]
    exact ⟨h _ (Nat.mod_lt _ hb), ih⟩

theorem digitsValue_hex {k n : Nat} (h : n < 16 ^ k) : digitsValue 16 0 (digitsOf 16 k n) = some n := by
  rw [digitsValue_digitsOf (by decide) digitValue_digitChar_hex, zero_mul, zero_add, Nat.mod_eq_of_lt h]

theorem digitsValue_dec {k n : Nat} (h : n < 10 ^ k) : digitsValue 10 0 (digitsOf 10 k n) = some n := by
  rw [digitsValue_digitsOf (by decide) digitValue_digitChar_dec, zero_mul, zero_add, Nat.mod_eq_of_lt h]

/-- Decimal digits are no hexadecimal number, because none of them is an `x`. -/
theorem natOf_decimal {k n : Nat} (hk : 0 < k) (h : n < 10 ^ k) : natOf (digitsOf 10 k n) = some n := by
  have noX : 'x' ∉ digitsOf 10 k n := fun hx => digitsOf_mem (P := (· ≠ 'x')) (by decide) (by decide) k n _ hx rfl
  rw [← digitsValue_dec h]
  obtain ⟨k, rfl⟩ := Nat.exists_eq_succ_of_ne_zero hk.ne'
  unfold natOf
  split
  · simp_all [digitsOf]
  · simp_all
  · simp_all
  · rfl

theorem natOf_hex {k n : Nat} (hk : 0 < k) (h : n < 16 ^ k) : natOf (hexText k n) = some n := by
  obtain ⟨k, rfl⟩ := Nat.exists_eq_succ_of_ne_zero hk.ne'
  exact digitsValue_hex h

/-- A number in hexadecimal is one token. -/
theorem tokOf_hexText {k n : Nat} (hk : 0 < k) (h : n < 16 ^ k) : tokOf (hexText k n) = .done (.num n) := by
  have := natOf_hex hk h
  simp only [hexText] at this
  simp only [hexText, tokOf, this]
  rfl

theorem tokOf_decText {k : Nat} {v : Int} (hk : 0 < k) (h : v.natAbs < 10 ^ k) : tokOf (decText k v) = .done (.num v) := by
  have value := natOf_decimal hk h
  unfold decText
  split
  next neg =>
    have sign : -(v.natAbs : Int) = v := by omega
    simp only [tokOf, value, sign]
    rfl
  next nonneg =>
    have sign : (v.natAbs : Int) = v := by omega
    obtain ⟨k, rfl⟩ := Nat.exists_eq_succ_of_ne_zero hk.ne'
    have digit : ∀ d < 10, startsNumber (digitChar d) = true ∧ digitChar d ≠ '-' := by decide
    obtain ⟨starts, notMinus⟩ := digit (v.natAbs / 10 ^ k % 10) (Nat.mod_lt _ (by decide))
    simp only [digitsOf] at value ⊢
    simp only [tokOf, value, starts, notMinus, sign, if_true, if_false]

/-! ### Text read back token by token (R98; log entry 14) -/

/-- `text` is one line, and the lexer reads it as `toks`. -/
def Reads (text : List Char) (toks : List Tok) : Prop := '\n' ∉ text ∧ lexLine [] text = .done toks

theorem reads_nil : Reads [] [] := ⟨nofun, rfl⟩

theorem reads_space {rest : List Char} {ts : List Tok} (h : Reads rest ts) : Reads (' ' :: rest) ts :=
  ⟨by simp [h.1], (lexLine_space rest).trans h.2⟩

theorem reads_punctuation {c : Char} {t : Tok} {rest : List Char} {ts : List Tok}
    (hc : c ≠ ';' ∧ isWordChar c = false ∧ c.isWhitespace = false ∧ punctuation c = some t) (h : Reads rest ts) :
    Reads (c :: rest) (t :: ts) := by
  refine ⟨?_, lexLine_punctuation hc h.2⟩
  have : c ≠ '\n' := by
    rintro rfl
    exact absurd hc.2.2.1 (by decide)
  simp [h.1, this.symm]

/-- What comes after a word: nothing, or a character of no word. -/
def EndsWord (rest : List Char) : Prop := ∀ c ∈ rest.head?, isWordChar c = false

theorem endsWord_nil : EndsWord [] := nofun

theorem endsWord_cons {c : Char} (h : isWordChar c = false) (rest : List Char) : EndsWord (c :: rest) := by
  simpa [EndsWord] using h

theorem reads_word {w rest : List Char} {t : Tok} {ts : List Tok} (hw : ∀ c ∈ w, isWordChar c = true) (ht : tokOf w = .done t)
    (hr : EndsWord rest) (h : Reads rest ts) : Reads (w ++ rest) (t :: ts) := by
  refine ⟨?_, lexLine_word hw ht hr h.2⟩
  have : '\n' ∉ w := fun hn => absurd (hw _ hn) (by decide)
  simp [h.1, this]

/-- A byte is one number (R98). -/
theorem reads_byteText (b : Byte) {rest : List Char} {ts : List Tok} (hr : EndsWord rest) (h : Reads rest ts) :
    Reads (byteText b ++ rest) (.num b.toNat :: ts) := by
  refine reads_word ?_ (tokOf_hexText (by decide) b.isLt) hr h
  simp only [byteText, hexText, List.forall_mem_cons]
  exact ⟨by decide, by decide, digitsOf_mem (by decide) (by decide) 2 _⟩

/-- A decimal number, with its sign, is one number (R98; log entry 14). -/
theorem reads_decText {k : Nat} {v : Int} (hk : 0 < k) (hv : v.natAbs < 10 ^ k) {rest : List Char} {ts : List Tok}
    (hr : EndsWord rest) (h : Reads rest ts) : Reads (decText k v ++ rest) (.num v :: ts) := by
  refine reads_word ?_ (tokOf_decText hk hv) hr h
  have digits := digitsOf_mem (P := (isWordChar · = true)) (base := 10) (by decide) (by decide) k v.natAbs
  unfold decText
  split
  · exact List.forall_mem_cons.mpr ⟨by decide, digits⟩
  · exact digits

/-- The bytes of a list after its opening bracket (R98). -/
theorem reads_bytes (bs : Bytes) : ∀ b, Reads ((((b :: bs).map byteText).intersperse [',', ' ']).flatten ++ [']'])
    (((b :: bs).map fun b => Tok.num b.toNat).intersperse .comma ++ [.rbrack]) := by
  have close : Reads [']'] [.rbrack] := reads_punctuation (by decide) reads_nil
  induction bs with
  | nil =>
    intro b
    have := reads_byteText b (endsWord_cons rfl _) close
    simpa using this
  | cons b' bs ih =>
    intro b
    have := reads_byteText b (endsWord_cons rfl _) (reads_punctuation (c := ',') (t := .comma) (by decide) (reads_space (ih b')))
    simpa using this

/-- A byte list (R98). -/
theorem reads_listText (bs : Bytes) : Reads (listText bs) (listTokens (bs.map fun b => (b.toNat : Int))) := by
  refine reads_punctuation (by decide) ?_
  cases bs with
  | nil => exact reads_punctuation (by decide) reads_nil
  | cons b bs => simpa [Function.comp_def] using reads_bytes bs b

/-- A word that is read as itself. -/
def IsName (w : List Char) : Prop := w.all isWordChar = true ∧ tokOf w = .done (.word w)

/-- A comma between operands (R98). -/
theorem reads_comma {rest : List Char} {ts : List Tok} (h : Reads rest ts) : Reads (',' :: ' ' :: rest) (.comma :: ts) :=
  reads_punctuation (by decide) (reads_space h)

/-- A record's field (R98): `text` is its name and the equals sign, after a comma from the second field on. -/
theorem reads_field (name : String) {text : List Char} (ht : text = name.toList ++ ['=']) (hn : IsName name.toList) {k : Nat} {v : Int}
    (hk : 0 < k) (hv : v.natAbs < 10 ^ k) {rest : List Char} {ts : List Tok} (hr : EndsWord rest) (h : Reads rest ts) :
    Reads (text ++ (decText k v ++ rest)) (.word name.toList :: .equals :: .num v :: ts) := by
  rw [ht, List.append_assoc]
  exact reads_word (List.all_eq_true.mp hn.1) hn.2 (endsWord_cons rfl _) (reads_punctuation (by decide) (reads_decText hk hv hr h))

theorem reads_next_field (name : String) {text : List Char} (ht : text = ',' :: ' ' :: (name.toList ++ ['='])) (hn : IsName name.toList)
    {k : Nat} {v : Int} (hk : 0 < k) (hv : v.natAbs < 10 ^ k) {rest : List Char} {ts : List Tok} (hr : EndsWord rest)
    (h : Reads rest ts) : Reads (text ++ (decText k v ++ rest)) (.comma :: .word name.toList :: .equals :: .num v :: ts) := by
  rw [ht]
  exact reads_comma (reads_field name rfl hn hk hv hr h)

/-- The range of a leap-second field (R9). -/
theorem toInt_byte_range (b : Byte) : -128 ≤ b.toInt ∧ b.toInt ≤ 127 := by
  have := b.toInt_lt
  have := b.le_toInt
  omega

/-- A record (R98). -/
theorem reads_recordText (t : GpsTime) : Reads (recordText t)
    (recordTokens t.tow.toNat t.stow.toNat t.wn.toNat t.defleap.toInt t.curleap.toInt t.valid.toNat) := by
  have u32 (v : BitVec 32) : (v.toNat : Int).natAbs < 10 ^ 10 := by omega
  have u16 (v : BitVec 16) : (v.toNat : Int).natAbs < 10 ^ 5 := by omega
  have u8 (v : Byte) : (v.toNat : Int).natAbs < 10 ^ 3 := by omega
  have i8 (v : Byte) : v.toInt.natAbs < 10 ^ 3 := by
    have := toInt_byte_range v
    omega
  have comma {rest : List Char} : EndsWord (',' :: rest) := endsWord_cons rfl rest
  have digits {k : Nat} : 0 < k + 1 := k.succ_pos
  refine reads_punctuation (by decide) ?_
  refine reads_field "tow" rfl ⟨rfl, rfl⟩ digits (u32 t.tow) comma ?_
  refine reads_next_field "stow" rfl ⟨rfl, rfl⟩ digits (u32 t.stow) comma ?_
  refine reads_next_field "wn" rfl ⟨rfl, rfl⟩ digits (u16 t.wn) comma ?_
  refine reads_next_field "defleap" rfl ⟨rfl, rfl⟩ digits (i8 t.defleap) comma ?_
  refine reads_next_field "curleap" rfl ⟨rfl, rfl⟩ digits (i8 t.curleap) comma ?_
  refine reads_next_field "valid" rfl ⟨rfl, rfl⟩ digits (u8 t.valid) (endsWord_cons (c := Char.ofNat 125) rfl _) ?_
  exact reads_punctuation (by decide) reads_nil

/-- A mnemonic alone on its line (R98). -/
theorem reads_mnemonic {w : List Char} (hw : IsName w) : Reads w [.word w] := by
  have := reads_word (List.all_eq_true.mp hw.1) hw.2 endsWord_nil reads_nil
  rwa [List.append_nil] at this

/-- A mnemonic and a space before its operands (R98). -/
theorem reads_mnemonic_operands (w : String) {text : List Char} (ht : text = w.toList ++ [' ']) (hw : IsName w.toList)
    {ops : List Char} {ts : List Tok} (h : Reads ops ts) : Reads (text ++ ops) (.word w.toList :: ts) := by
  rw [ht, List.append_assoc]
  exact reads_word (List.all_eq_true.mp hw.1) hw.2 (endsWord_cons rfl _) (reads_space h)

/-- The tokens of a byte list's bytes. -/
def bytesTokens (bs : Bytes) : List Tok := listTokens (bs.map fun b => (b.toNat : Int))

/-- The tokens of a command's line (R98); an illegal opcode has none. -/
def commandTokens : Instr → List Tok
  | .rst => [.word "RST".toList]
  | .cksClr => [.word "CKS_CLR".toList]
  | .cksFeed data => .word "CKS_FEED".toList :: bytesTokens data
  | .cksRead => [.word "CKS_READ".toList]
  | .encFrame id body => .word "ENC_FRAME".toList :: .num id.toNat :: .comma :: bytesTokens body
  | .decPush data => .word "DEC_PUSH".toList :: bytesTokens data
  | .decTake => [.word "DEC_TAKE".toList]
  | .decStatus => [.word "DEC_STATUS".toList]
  | .decFlush => [.word "DEC_FLUSH".toList]
  | .gtcDecode p => .word "GTC_DECODE".toList :: bytesTokens p
  | .gtcEpoch t => .word "GTC_EPOCH".toList ::
      recordTokens t.tow.toNat t.stow.toNat t.wn.toNat t.defleap.toInt t.curleap.toInt t.valid.toNat
  | .gtcConvert p => .word "GTC_CONVERT".toList :: bytesTokens p
  | .illegal _ => []

/-- A command's text is read as its tokens. -/
theorem reads_commandText (i : Instr) : Reads (commandText i) (commandTokens i) := by
  cases i with
  | rst | cksClr | cksRead | decTake | decStatus | decFlush => exact reads_mnemonic ⟨rfl, rfl⟩
  | cksFeed data => exact reads_mnemonic_operands "CKS_FEED" rfl ⟨rfl, rfl⟩ (reads_listText data)
  | decPush data => exact reads_mnemonic_operands "DEC_PUSH" rfl ⟨rfl, rfl⟩ (reads_listText data)
  | gtcDecode p => exact reads_mnemonic_operands "GTC_DECODE" rfl ⟨rfl, rfl⟩ (reads_listText p)
  | gtcConvert p => exact reads_mnemonic_operands "GTC_CONVERT" rfl ⟨rfl, rfl⟩ (reads_listText p)
  | encFrame id body =>
    exact reads_mnemonic_operands "ENC_FRAME" rfl ⟨rfl, rfl⟩ (reads_byteText id (endsWord_cons rfl _) (reads_comma (reads_listText body)))
  | gtcEpoch t => exact reads_mnemonic_operands "GTC_EPOCH" rfl ⟨rfl, rfl⟩ (reads_recordText t)
  | illegal op => exact reads_nil

/-! ### Tokens read back as the command (R98, R99) -/

theorem byteOf_toNat (b : Byte) : byteOf b.toNat = .done b := by
  rw [byteOf_of_range (by omega)]
  simp

theorem byteList_bytesTokens {bs : Bytes} (h : bs.length ≤ maxLen) : byteList (bytesTokens bs) = .done bs := by
  have range : ∀ v ∈ bs.map fun b => (b.toNat : Int), 0 ≤ v ∧ v ≤ 255 := by
    simp only [List.forall_mem_map]
    omega
  rw [bytesTokens, byteList_listTokens, List.length_map, if_neg (Nat.not_lt.mpr h), bytesOf_of_range range]
  simp [Function.comp_def]

theorem record_of_fields (t : GpsTime) :
    record (recordTokens t.tow.toNat t.stow.toNat t.wn.toNat t.defleap.toInt t.curleap.toInt t.valid.toNat) = .done t := by
  rw [record_recordTokens, if_pos ⟨by omega, by omega, by omega, toInt_byte_range _, toInt_byte_range _, by omega⟩]
  simp

/-- The tokens of a legal command's line are read back as that command alone. -/
theorem assembleTokens_commandTokens (p : RebootParams) {i : Instr} (h : Legal i) : assembleTokens p (commandTokens i) = .done [i] := by
  obtain ⟨hw, hi⟩ := h
  have list {bs : Bytes} (hf : decide (Bytes.FitsCount bs) = true) := byteList_bytesTokens (of_decide_eq_true hf)
  have counted (mk : Bytes → Instr) {bs : Bytes} (hf : decide (Bytes.FitsCount bs) = true) :
      ((byteList (bytesTokens bs)).bind fun d => .done [mk d]) = .done [mk bs] := by rw [list hf, bind_done]
  cases i with
  | rst | cksClr | cksRead | decTake | decStatus | decFlush => rfl
  | cksFeed data => exact counted .cksFeed hw
  | decPush data => exact counted .decPush hw
  | gtcDecode payload => exact counted .gtcDecode hw
  | gtcConvert payload => exact counted .gtcConvert hw
  | encFrame id body =>
    rw [commandTokens, assembleTokens_encFrame, encFrameOperands_num_comma, byteOf_toNat, bind_done, list hw]
    rfl
  | gtcEpoch t => rw [commandTokens, assembleTokens_gtcEpoch, record_of_fields, bind_done]
  | illegal op => exact absurd rfl (hi op)

theorem assembleLine_commandText (p : RebootParams) {i : Instr} (h : Legal i) : assembleLine p (commandText i) = .done [i] := by
  rw [assembleLine, (reads_commandText i).2, bind_done, assembleTokens_commandTokens p h]

/-- The text of legal commands, one a line, assembles to them. -/
theorem assembleProgram_programText (p : RebootParams) {cmds : List Instr} (h : ∀ i ∈ cmds, Legal i) :
    assembleProgram p (programText cmds) = .done cmds := by
  induction cmds with
  | nil => rfl
  | cons i cmds ih =>
    obtain ⟨hi, hcmds⟩ := List.forall_mem_cons.mp h
    rw [programText, assembleProgram_line p (reads_commandText i).1, assembleLine_commandText p hi, ih hcmds]
    rfl

/-- Settles O59: accepted commands are legal line by line, and a legal command's line is read back token by token. -/
theorem assembledCommandsAreWellFormed : Obligations.AssembledCommandsAreWellFormed := by
  unfold Obligations.AssembledCommandsAreWellFormed
  intro p
  refine ⟨fun text cmds h => ⟨assembleLines_legal p _ cmds h, ?_⟩, fun cmds => assembleProgram_programText p,
    fun line rest h => assembleProgram_line p h rest, fun line comment => ?_, fun k n hk => ⟨tokOf_hexText hk, fun h => tokOf_decText hk h⟩⟩
  · rw [assembleBytes, h, bind_done]
  · rw [assembleLine, lexLine_comment, assembleLine]

end Sys2Proof.Laws
end

section
/-! The checksum unit (40_checksum.md): the laws of `cks`, and what its three commands answer and leave in `CKS_ACC`. -/

namespace Sys2Proof.Laws

open Sys2Proof.Machine

/-! ### The checksum function (R121) -/

/-- XOR is commutative and associative, so the fold does not see the order of the bytes. -/
theorem cks_eq_of_perm {a b : Bytes} (h : a.Perm b) : cks a = cks b := h.foldl_op_eq

/-- XORing a mask into one byte XORs it into the checksum, whatever the byte's position. -/
theorem cks_modify_xor (m : Byte) {a : Bytes} {i : Nat} (hi : i < a.length) : cks (a.modify i (· ^^^ m)) = cks a ^^^ m := by
  induction a generalizing i with
  | nil => exact absurd hi (Nat.not_lt_zero i)
  | cons x a ih =>
    cases i with
    | zero => rw [List.modify_zero_cons, cks_cons, cks_cons, BitVec.xor_assoc, BitVec.xor_comm m, BitVec.xor_assoc]
    | succ i => rw [List.modify_succ_cons, cks_cons, cks_cons, ih (Nat.lt_of_succ_lt_succ hi), BitVec.xor_assoc]

theorem xor_oneBit_ne {j : Nat} (hj : j < 8) (c : Byte) : c ^^^ (1#8 <<< j) ≠ c := by
  have hbit : ∀ j < 8, 1#8 <<< j ≠ 0 := by decide
  exact fun h => hbit j hj (xor_left_eq_self_iff.mp h)

/-- Settles O19: a mask XORed into one byte is XORed into the checksum, so one bit shows and the same bit of two bytes cancels. -/
theorem checksumLaws : Obligations.ChecksumLaws := by
  unfold Obligations.ChecksumLaws
  refine ⟨cks_nil, cks_append, fun _ _ => cks_eq_of_perm, fun a => ?_, fun a i j hi hj => ?_, fun a i k j hi hk _ => ?_⟩
  · rw [cks_append, cks_singleton, BitVec.xor_self]
  · exact ⟨cks_modify_xor _ hi, cks_modify_xor _ hi ▸ xor_oneBit_ne hj _, xor_oneBit_ne hj _⟩
  · rw [cks_modify_xor _ (by rwa [List.length_modify]), cks_modify_xor _ hi, xor_cancel_right]

/-! ### The commands (R122, R123, R124) -/

/-- Settles O20: a second CKS_CLR clears an accumulator that is clear already. -/
theorem cksClrClearsTheAccumulator : Obligations.CksClrClearsTheAccumulator := by
  unfold Obligations.CksClrClearsTheAccumulator
  exact ⟨rfl, fun s => ⟨_, responds_cksClr s, rfl, rfl, _, responds_cksClr _, rfl, rfl⟩⟩

/-- Settles O21: two feeds XOR both checksums in; equal ones cancel, and together they are the checksum of the joined data. -/
theorem cksFeedXorsTheData : Obligations.CksFeedXorsTheData := by
  unfold Obligations.CksFeedXorsTheData
  intro data s
  refine ⟨rfl, _, responds_cksFeed s data, rfl, rfl, ?nothing, ⟨_, (responds_cksFeed _ data).1, ?twice⟩,
    fun more => ⟨_, _, (responds_cksFeed _ more).1, (responds_cksFeed s (data ++ more)).1, ?joined⟩⟩
  case nothing =>
    rintro rfl
    exact BitVec.xor_zero
  case twice => exact xor_cancel_right s.cksAcc (cks data)
  case joined => simp only [addResponse_cksAcc, setCksAcc_cksAcc, cks_append, BitVec.xor_assoc]

/-- Settles O22: CKS_READ adds a response to the state and nothing else, and at reset the accumulator is 0. -/
theorem cksReadReturnsTheAccumulator : Obligations.CksReadReturnsTheAccumulator := by
  unfold Obligations.CksReadReturnsTheAccumulator
  exact ⟨rfl, fun s => ⟨_, responds_cksRead s, rfl, rfl⟩, _, responds_cksRead State.reset⟩

end Sys2Proof.Laws
end

section
/-! The frame encoder (41_frame_encoder.md), and the way back: a frame pushed in chunks is one push of the whole frame (R143, R176), and
DEC_TAKE returns its payload and checksum byte. -/

namespace Sys2Proof.Laws

open Sys2Proof.Machine

/-! ### ENC_FRAME (R140, R141, R142) -/

/-- The length field of a frame holds its payload's length (R70, R72). -/
theorem be_slice_frameOf {payload : Bytes} (h : payload.length ≤ 65535) : be (slice (frameOf payload) 2 4) = payload.length := by
  have field : slice (frameOf payload) 2 4 = beBytes 2 payload.length := by
    rw [frameOf, List.append_assoc]
    exact slice_append_middle [start1, start2] (beBytes 2 payload.length) _
  rw [field, be_beBytes_count h]

/-- The layout of R70 with the payload split into its id and body (R140). -/
theorem frameOf_cons (id : Byte) (body : Bytes) : frameOf (id :: body) =
    [0xA0#8, 0xA1#8] ++ beBytes 2 (1 + body.length) ++ (id :: body) ++ [cks (id :: body), 0x0D#8, 0x0A#8] := by
  rw [frameOf, List.length_cons, Nat.add_comm]

/-- Settles O25: the frame is `frameOf (id :: body)`, whose length and length field are known for any payload that fits. -/
theorem encFrameBuildsTheFrame : Obligations.EncFrameBuildsTheFrame := by
  unfold Obligations.EncFrameBuildsTheFrame
  intro id body s
  refine ⟨rfl, fun hfits => ?_, fun hlong => ?_⟩
  · refine ⟨_, _, responds_encFrame s body id hfits, ⟨rfl, rfl⟩, frameOf_cons id body, frameOf_length (id :: body), ?_⟩
    rw [be_slice_frameOf (payload := id :: body) (Nat.succ_le_succ hfits), List.length_cons, Nat.add_comm]
  · exact ⟨_, responds_encFrame_badLen s body id (by omega), rfl, rfl⟩

/-- Settles O26: ENC_FRAME is `Stateless`. -/
theorem encFrameIsDeterministic : Obligations.EncFrameIsDeterministic := by
  unfold Obligations.EncFrameIsDeterministic
  intro id body s s'
  obtain ⟨r, hr⟩ := stateless_encFrame id body
  exact ⟨r, _, _, ⟨hr s, rfl, rfl, rfl⟩, ⟨hr s', rfl, rfl, rfl⟩, rfl, rfl⟩

/-! ### A stream in chunks (R172, R176) -/

/-- If the scan consumes two pieces whole, it consumes the first whole. -/
theorem scanBytes_accepted_left (data more : Bytes) : ∀ c : Scan, (scanBytes c (data ++ more)).2 = (data ++ more).length →
    (scanBytes c data).2 = data.length := by
  induction data with
  | nil => exact fun _ _ => rfl
  | cons b rest ih =>
    intro c h
    by_cases hd : c.dec.dstate = .complete
    · simp [scanBytes_complete hd] at h
    · rw [List.cons_append, scanBytes_cons hd] at h
      rw [scanBytes_cons hd, ih _ (Nat.succ.inj h), List.length_cons]

/-- A stream that one push accepts whole is accepted whole in any chunks. -/
theorem allAccepted_of_flatten (ds : List Bytes) : ∀ d, pushAccepted d ds.flatten = ds.flatten.length → AllAccepted d ds := by
  induction ds with
  | nil => exact fun _ _ => trivial
  | cons data ds ih =>
    intro d h
    rw [List.flatten_cons] at h
    have first : pushAccepted d data = data.length := scanBytes_accepted_left data ds.flatten (startScan d) h
    have later := (push_append d data ds.flatten first).2.2
    rw [h, List.length_append, Nat.add_left_cancel_iff] at later
    exact ⟨first, ih _ later.symm⟩

/-- Chunks that are all accepted do together what one push of the joined stream does. -/
theorem push_flatten {d : Decoder} {ds : List Bytes} (h : AllAccepted d ds) :
    pushDecoder d ds.flatten = pushesDecoder d ds ∧ pushInv d ds.flatten = pushesInv d ds := by
  obtain ⟨hdec, hinv, -⟩ := pushes_append ds [] d h
  rw [List.append_nil] at hdec hinv
  exact ⟨hdec, hinv⟩

/-- The flags bytes of these pushes, made in order (R89). -/
def pushesFlags : Decoder → List Bytes → List Byte
  | _, [] => []
  | d, data :: rest => doneFlags (pushDecoder d data) :: pushesFlags (pushDecoder d data) rest

theorem pushesFlags_length (ds : List Bytes) : ∀ d, (pushesFlags d ds).length = ds.length := by
  induction ds with
  | nil => exact fun _ => rfl
  | cons data ds ih => exact fun d => congrArg Nat.succ (ih (pushDecoder d data))

/-- The last flags byte reports the decoder after all the pushes. -/
theorem pushesFlags_concat (ds : List Bytes) (last : Bytes) : ∀ d,
    pushesFlags d (ds ++ [last]) = pushesFlags d ds ++ [doneFlags (pushesDecoder d (ds ++ [last]))] := by
  induction ds with
  | nil => exact fun _ => rfl
  | cons data ds ih => exact fun d => congrArg (List.cons _) (ih (pushDecoder d data))

/-- Pushes that accept all their data with no Invalid event report each chunk's length, `inv = 0` and their flags (R89, R172). -/
theorem pushesResponses_of_accepted (ds : List Bytes) : ∀ d, AllAccepted d ds → pushesInv d ds = 0 → pushesResponses d ds =
    List.zipWith (fun c f => 0x00#8 :: (beBytes 2 c.length ++ [0x00#8, 0x00#8, 0x00#8, 0x00#8, f])) ds (pushesFlags d ds) := by
  induction ds with
  | nil => exact fun _ _ _ => rfl
  | cons data ds ih =>
    rintro d ⟨first, later⟩ hinv
    obtain ⟨quiet, hinv⟩ := Nat.add_eq_zero_iff.mp hinv
    have response : pushResponse d data =
        0x00#8 :: (beBytes 2 data.length ++ [0x00#8, 0x00#8, 0x00#8, 0x00#8, doneFlags (pushDecoder d data)]) := by
      rw [pushResponse, first, quiet, ← doneFlags_eq, List.append_assoc]
      rfl
    rw [pushesResponses, response, ih _ later hinv]
    rfl

/-! ### Taking a whole frame (R173) -/

/-- A held frame is reported by its payload's length, its payload and its checksum byte (R38, R70). -/
theorem heldFrameFields_frameOf {d : Decoder} {payload : Bytes} (hcap : d.cap = frameOf payload)
    (hlen : d.dlen.toNat = payload.length) : heldFrameFields d = beBytes 2 payload.length ++ payload ++ [cks payload] := by
  obtain ⟨hi, lo, hfield⟩ : ∃ hi lo, beBytes 2 payload.length = [hi, lo] := ⟨_, _, rfl⟩
  have hcandidate : frameOf payload = candidate hi lo payload [cks payload, end1, end2] := by
    simp [frameOf, candidate, hfield]
  have trailer := slice_candidate_trailer hi lo payload [cks payload, end1, end2] 0 1
  rw [Nat.add_zero, Nat.add_right_comm] at trailer
  rw [heldFrameFields, hcap, hlen, hcandidate, slice_candidate_payload, trailer]
  rfl

/-- DEC_TAKE returns a held frame with `inv = 0` and `DONE = 0` when no byte is queued behind it (R173). -/
theorem responds_decTake_frameOf {s : State} {payload : Bytes} (held : s.dec.dstate = .complete) (hr : s.dec.replay = [])
    (hcap : s.dec.cap = frameOf payload) (hlen : s.dec.dlen.toNat = payload.length) : ∃ u, Responds .decTake s u
      (0x00#8 :: (beBytes 2 payload.length ++ payload ++ [cks payload, 0x00#8, 0x00#8, 0x00#8, 0x00#8, 0x00#8])) := by
  have nothingQueued : drain (startScan (clearCandidate s.dec)) = startScan (clearCandidate s.dec) := drain_of_drained (.inl hr)
  have fields : beBytes 4 (startScan (clearCandidate s.dec)).ninv ++ [doneFlags (startScan (clearCandidate s.dec)).dec] =
      [0x00#8, 0x00#8, 0x00#8, 0x00#8, 0x00#8] := by
    rw [startScan_ninv]
    rfl
  have take := responds_decTake s held
  rw [nothingQueued, heldFrameFields_frameOf hcap hlen, List.append_assoc, fields, List.append_assoc] at take
  exact ⟨_, take⟩

/-- A frame pushed in chunks from SeekStart1, no byte queued, is accepted whole with no Invalid event and then held (R143, R176). -/
theorem pushes_frameOf {d : Decoder} {payload : Bytes} {ds : List Bytes} (hp : payload.length ≤ 65535) (h : d.dstate = .seekStart1)
    (hr : d.replay = []) (hjoined : ds.flatten = frameOf payload) :
    AllAccepted d ds ∧ pushesInv d ds = 0 ∧ pushesDecoder d ds =
      { d with
        dstate := .complete
        dlen := BitVec.ofNat 16 payload.length
        dcnt := BitVec.ofNat 16 payload.length
        dcs := cks payload
        cap := frameOf payload
        frmCnt := d.frmCnt + 1 } := by
  obtain ⟨hlen, accepted, quiet, held⟩ := everyPayloadDecodes d payload hp h hr
  rw [← hlen, ← hjoined] at accepted
  have all := allAccepted_of_flatten ds d accepted
  obtain ⟨hdec, hinv⟩ := push_flatten all
  rw [hjoined] at hdec hinv
  exact ⟨all, hinv.symm.trans quiet, hdec.symm.trans held⟩

/-- Settles O30: the chunks do what one push of the frame does, and no byte is left queued behind the frame. -/
theorem encodeThenDecodeRoundTrip : Obligations.EncodeThenDecodeRoundTrip := by
  unfold Obligations.EncodeThenDecodeRoundTrip
  intro id body frame s e chunks hbody hframe hseek hr hjoined _
  have hfits : (id :: body).length ≤ 65535 := Nat.succ_le_succ hbody
  obtain rfl : frame = frameOf (id :: body) := List.tail_eq_of_cons_eq (responds_unique hframe (responds_encFrame s body id hbody)).2
  obtain ⟨init, last, rfl⟩ : ∃ init last, chunks = init ++ [last] :=
    (List.eq_nil_or_concat' chunks).resolve_left (by rintro rfl; cases hjoined)
  obtain ⟨accepted, quiet, decoder⟩ := pushes_frameOf hfits hseek hr hjoined
  obtain ⟨t, pushed, responses, hdec⟩ : ∃ t, execAll ((init ++ [last]).map .decPush) s = .next t ∧
      t.responses = s.responses ++ pushesResponses s.dec (init ++ [last]) ∧ t.dec = pushesDecoder s.dec (init ++ [last]) :=
    ⟨_, execAll_decPush _ s, rfl, rfl⟩
  rw [pushesResponses_of_accepted _ _ accepted quiet] at responses
  rw [decoder] at hdec
  obtain ⟨u, take⟩ := responds_decTake_frameOf (s := t) (payload := id :: body) (by rw [hdec]) (by rw [hdec]; exact hr)
    (by rw [hdec]) (by rw [hdec]; exact Nat.mod_eq_of_lt (Nat.lt_succ_of_le hfits))
  rw [List.length_cons, Nat.add_comm body.length] at take
  refine ⟨t, u, pushesFlags s.dec (init ++ [last]), pushesFlags s.dec init, pushed, pushesFlags_length _ _, ?_, responses, take⟩
  rw [pushesFlags_concat, decoder]
  rfl

end Sys2Proof.Laws
end

section
/-! The decoder's scanning step (42_frame_decoder.md, section 1): what each state makes of a byte (R161 to R169), and what a completed
frame is (R38, R180). -/

namespace Sys2Proof.Laws

open Sys2Proof.Machine

/-! ### One state at a time (R161 to R169) -/

/-- A candidate that holds its START1 only has nothing else for `clear_candidate()` to clear, so a START2 mismatch is the byte scanned
again in SeekStart1 (R162). -/
theorem dstep_seekStart2_mismatch {c : Scan} {b : Byte} (h : c.dec.dstate = .seekStart2) (hb : b ≠ start2) (hs : CandidateShape c.dec) :
    dstep c b = dstep { c with dec := clearCandidate c.dec } b := by
  obtain ⟨⟨ds, dlen, dcnt, dcs, cap, rp, ic, fc⟩, ninv⟩ := c
  obtain rfl : ds = .seekStart2 := h
  obtain ⟨-, rfl, rfl, rfl⟩ := hs
  rw [dstep_seekStart2 b rfl, dstepSeekStart2, if_neg hb, dstep_seekStart1 b rfl, dstepSeekStart1]
  rfl

/-- Settles O31: the two arms of `dstep`, and the mismatch read as a second scan. -/
theorem seekingTheStartMarker : Obligations.SeekingTheStartMarker := by
  unfold Obligations.SeekingTheStartMarker
  intro c b
  refine ⟨fun h => ?_, fun h => ?_⟩
  · rw [dstep_seekStart1 b h, dstepSeekStart1]
    exact ⟨fun hb => if_pos hb, fun hb => if_neg hb⟩
  · refine ⟨?_, ?_, ?_, fun hb hinv => dstep_seekStart2_mismatch h hb (candidateShape_of_inv hinv)⟩
    all_goals rw [dstep_seekStart2 b h, dstepSeekStart2]
    · rintro rfl
      rfl
    · rintro rfl
      rw [← h]
      rfl
    · intro hb1 hb0
      rw [if_neg hb1, if_neg hb0]
      rfl

/-- Settles O32: the high byte is times 256, so the low byte adds to it without overflow. -/
theorem readingTheDeclaredLength : Obligations.ReadingTheDeclaredLength := by
  unfold Obligations.ReadingTheDeclaredLength
  intro c b
  have hb := b.isLt
  refine ⟨fun h => ?_, fun h hinv => ?_⟩
  · refine ⟨BitVec.ofNat 16 (b.toNat * 256), Nat.mod_eq_of_lt (by omega), ?_⟩
    rw [dstep_readLengthHi b h]
    rfl
  · have hs := candidateShape_of_inv hinv
    simp only [CandidateShape, h] at hs
    obtain ⟨hi, -, hlen, -, -⟩ := hs
    have hhi := hi.isLt
    refine ⟨c.dec.dlen + BitVec.ofNat 16 b.toNat, ?_, ?_⟩
    · rw [BitVec.toNat_add, BitVec.toNat_ofNat]
      omega
    · rw [dstep_readLengthLo b h, dstepReadLengthLo]
      simp only
      split <;> rfl

/-- Settles O33: before the step fewer than `DLEN` bytes are counted, so the count does not overflow. -/
theorem readingThePayload : Obligations.ReadingThePayload := by
  unfold Obligations.ReadingThePayload
  rintro c b h ⟨-, ⟨-, hcnt, -⟩, -⟩
  have more := hcnt h
  have hl := c.dec.dlen.isLt
  have next : (c.dec.dcnt + 1).toNat = c.dec.dcnt.toNat + 1 := by
    rw [BitVec.toNat_add_of_lt] <;> simp; omega
  refine ⟨c.dec.dcnt + 1, next, by omega, ?_⟩
  rw [dstep_readPayload b h, dstepReadPayload]
  by_cases last : c.dec.dcnt + 1 = c.dec.dlen
  · rw [if_pos last]
    exact if_pos last
  · rw [if_neg last, ← h]
    exact if_neg last

/-- Settles O34: each state's arm of `dstep`, then one round of the loop of R171. -/
theorem checkingTheTrailer : Obligations.CheckingTheTrailer := by
  unfold Obligations.CheckingTheTrailer
  rintro c b bad good hbad rfl
  have event : bad = invalid (capture c b) := by
    rw [hbad, ← List.drop_one]
    rfl
  refine ⟨fun h => ?_, fun h => ?_, fun h => ?_, fun x rest hr => ?_⟩
  · rw [dstep_readChecksum b h, event]
    rfl
  · rw [dstep_readEnd1 b h, event]
    rfl
  · rw [dstep_readEnd2 b h, event]
    rfl
  · exact drain_of_replay (by simp [event]) hr

/-! ### A completed frame (R38, R180) -/

/-- A candidate whose length bytes say how long its payload is, and whose trailer is right, is a frame (R70). -/
theorem candidate_eq_frameOf {hi lo : Byte} {p : Bytes} (h : p.length = be [hi, lo]) :
    candidate hi lo p [cks p, end1, end2] = frameOf p := by
  have field : beBytes 2 p.length = [hi, lo] := by rw [h]; exact beBytes_be [hi, lo]
  simp [candidate, frameOf, field]

/-- What the decoder holds in Complete is the frame of a payload of the declared length (R180). -/
theorem exists_payload_of_complete {d : Decoder} (hs : CandidateShape d) (held : d.dstate = .complete) :
    ∃ payload : Bytes, payload.length = d.dlen.toNat ∧ d.cap = frameOf payload := by
  simp only [CandidateShape, held] at hs
  obtain ⟨hi, lo, p, hcap, hlen, hp, -, hcs⟩ := hs
  exact ⟨p, hp, by rw [hcap, hcs, candidate_eq_frameOf (hp.trans hlen)]⟩

/-- The payload and the checksum byte of a frame, as DEC_TAKE slices them (R38). -/
theorem slices_frameOf (p : Bytes) : slice (frameOf p) 4 (4 + p.length) = p ∧
    slice (frameOf p) (4 + p.length) (5 + p.length) = [cks p] := by
  have payload := slice_append_middle ([start1, start2] ++ beBytes 2 p.length) p [cks p, end1, end2]
  have checksum := slice_append_middle ([start1, start2] ++ beBytes 2 p.length ++ p) [cks p] [end1, end2]
  have header : ([start1, start2] ++ beBytes 2 p.length).length = 4 := by simp
  rw [header] at payload
  rw [List.length_append, header, List.append_assoc _ [cks p], List.length_singleton, Nat.add_right_comm] at checksum
  exact ⟨payload, checksum⟩

/-- Settles O45: the decoder invariant says what `CAP` is in Complete, and a scanning step keeps it. -/
theorem completeHoldsAValidFrame : Obligations.CompleteHoldsAValidFrame := by
  unfold Obligations.CompleteHoldsAValidFrame
  constructor
  · rintro s ⟨hinv, -⟩ held
    obtain ⟨payload, hlen, hcap⟩ := exists_payload_of_complete (candidateShape_of_inv hinv) held
    rw [hcap, ← hlen]
    exact ⟨payload, rfl, rfl, slices_frameOf payload⟩
  · intro c b hinv hd held
    exact exists_payload_of_complete (dstep_shape b hd (candidateShape_of_inv hinv)) held

end Sys2Proof.Laws
end

section
/-! Draining and the decoder's commands (42_frame_decoder.md, sections 2 and 3): the loops of R171 and R172 round by round, how many
scanning steps they make (R177), and what DEC_PUSH, DEC_TAKE and DEC_FLUSH do (R170, R172, R173, R175, R181). -/

namespace Sys2Proof.Laws

open Sys2Proof.Machine

/-! ### The loop of `drain()` (R171) -/

/-- One more unit of fuel is one more round of the loop, while it is not over. -/
theorem drainFuel_succ_eq_dstep (n : Nat) : ∀ c : Scan, ¬ Drained (drainFuel n c) → ∃ b rest,
    (drainFuel n c).dec.replay = b :: rest ∧ drainFuel (n + 1) c = dstep (setReplay (drainFuel n c) rest) b := by
  induction n with
  | zero =>
    intro c hc
    obtain ⟨hq, hd⟩ := not_or.mp hc
    obtain ⟨b, rest, hr⟩ := List.exists_cons_of_ne_nil hq
    simp only [drainFuel] at hr hd
    exact ⟨b, rest, hr, by simp only [drainFuel, hr, hd, if_false]⟩
  | succ n ih =>
    intro c hc
    rcases hr : c.dec.replay with _ | ⟨x, queue⟩
    · exact absurd (.inl (by simp only [drainFuel, hr])) hc
    · by_cases hd : c.dec.dstate = .complete
      · exact absurd (.inr (by simp only [drainFuel, hr, hd, if_true])) hc
      · have round : ∀ k, drainFuel (k + 1) c = drainFuel k (dstep (setReplay c queue) x) := fun k => by
          simp only [drainFuel, hr, hd, if_false]
        rw [round n] at hc ⊢
        rw [round (n + 1)]
        exact ih _ hc

/-- Settles O35: the loop's states are those after 0, 1, 2, … units of fuel, up to the first that is drained. -/
theorem drainIsTheWhileLoop : Obligations.DrainIsTheWhileLoop := by
  unfold Obligations.DrainIsTheWhileLoop
  intro c₀
  have ends : ∃ m, Drained (drainFuel m c₀) := ⟨_, drain_drained c₀⟩
  refine ⟨Nat.find ends, fun j => drainFuel j c₀, rfl, fun j hj => ?_, Nat.find_spec ends, ?_⟩
  · have running := Nat.find_min ends hj
    exact ⟨fun hd => running (.inr hd), drainFuel_succ_eq_dstep j c₀ running⟩
  · exact drainFuel_unique (drain_drained c₀) (Nat.find_spec ends)

/-! ### Scanning steps (R177) -/

/-- The lexicographic measure of R177 as one number: `total` bytes captured, queued or not yet pushed, `ahead` of them not in `CAP`. -/
def stepMeasure (total ahead : Nat) : Nat := total * (total + 1) + 2 * ahead

/-- A lexicographic fall of `(total, ahead)` is a fall of the measure by at least 2. -/
theorem stepMeasure_lt {total ahead total' ahead' : Nat} (hle : ahead' ≤ total')
    (h : total' < total ∨ total' = total ∧ ahead' < ahead) : stepMeasure total' ahead' + 2 ≤ stepMeasure total ahead := by
  simp only [stepMeasure]
  rcases h with h | ⟨rfl, h⟩
  · nlinarith
  · omega

/-- Half the measure is at most R177's bound. -/
theorem stepMeasure_le {total ahead : Nat} (h : ahead ≤ total) : stepMeasure total ahead ≤ 2 * (total * (total + 1)) := by
  simp only [stepMeasure]
  nlinarith [Nat.le_mul_self total]

/-- The measure of a scan with `n` bytes still to be pushed. -/
def scanMeasure (c : Scan) (n : Nat) : Nat := stepMeasure (c.dec.cap.length + c.dec.replay.length + n) (c.dec.replay.length + n)

/-- Scanning a REPLAY byte lowers the lexicographic measure (R177). -/
theorem dstep_replay_lt {c : Scan} {b : Byte} {rest : Bytes} (hd : c.dec.dstate ≠ .complete) (hr : c.dec.replay = b :: rest) {d : Decoder}
    (h : d = (dstep (setReplay c rest) b).dec) :
    d.cap.length + d.replay.length < c.dec.cap.length + c.dec.replay.length ∨
      (d.cap.length + d.replay.length = c.dec.cap.length + c.dec.replay.length ∧ d.replay.length < c.dec.replay.length) := by
  subst h
  rw [hr, List.length_cons]
  rcases dstep_size (setReplay c rest) b hd with hs | ⟨hs, hq⟩
  · rw [setReplay_cap, setReplay_replay] at hs
    exact .inl (by omega)
  · rw [hq] at hs ⊢
    rw [setReplay_cap, setReplay_replay] at *
    exact .inr (by omega)

/-- Scanning a REPLAY byte lowers the measure, whatever is still to be pushed. -/
theorem scanMeasure_dstep_replay {c : Scan} {b : Byte} {rest : Bytes} (hd : c.dec.dstate ≠ .complete) (hr : c.dec.replay = b :: rest)
    (n : Nat) : scanMeasure (dstep (setReplay c rest) b) n + 2 ≤ scanMeasure c n :=
  stepMeasure_lt (by omega) (by have := dstep_replay_lt hd hr rfl; omega)

/-- Scanning a pushed byte lowers the measure. -/
theorem scanMeasure_dstep {c : Scan} (b : Byte) (hd : c.dec.dstate ≠ .complete) (n : Nat) :
    scanMeasure (dstep c b) n + 2 ≤ scanMeasure c (n + 1) := by
  refine stepMeasure_lt (by omega) ?_
  rcases dstep_size c b hd with hs | ⟨hs, hq⟩
  · exact .inl (by omega)
  · rw [hq] at hs ⊢
    exact .inr (by omega)

/-- Each scanning step of a drain is paid for by a fall of the measure by 2. -/
theorem drainFuelSteps_le (n fuel : Nat) : ∀ c : Scan,
    scanMeasure (drainFuel fuel c) n + 2 * drainFuelSteps fuel c ≤ scanMeasure c n := by
  induction fuel with
  | zero => exact fun c => le_rfl
  | succ fuel ih =>
    intro c
    rcases hr : c.dec.replay with _ | ⟨b, rest⟩
    · simp only [drainFuel, drainFuelSteps, hr, mul_zero, add_zero, le_refl]
    · by_cases hd : c.dec.dstate = .complete
      · simp only [drainFuel, drainFuelSteps, hr, hd, if_true, mul_zero, add_zero, le_refl]
      · simp only [drainFuel, drainFuelSteps, hr, hd, if_false]
        have fall := scanMeasure_dstep_replay hd hr n
        have later := ih (dstep (setReplay c rest) b)
        omega

/-- Each scanning step of DEC_PUSH is paid for by a fall of the measure by 2. -/
theorem pushSteps_le (data : Bytes) : ∀ c : Scan, 2 * pushSteps c data ≤ scanMeasure c data.length := by
  induction data with
  | nil => exact fun c => Nat.zero_le _
  | cons b rest ih =>
    intro c
    by_cases hd : c.dec.dstate = .complete
    · simp only [pushSteps, hd, if_true, mul_zero, zero_le]
    · simp only [pushSteps, hd, if_false, List.length_cons]
      have fall := scanMeasure_dstep b hd rest.length
      have drained := drainFuelSteps_le rest.length (drainBound (dstep c b).dec) (dstep c b)
      have later := ih (drain (dstep c b))
      simp only [drainSteps, drain] at *
      omega

/-- Fuel bounds the scanning steps made with it. -/
theorem drainFuelSteps_le_fuel (fuel : Nat) : ∀ c : Scan, drainFuelSteps fuel c ≤ fuel := by
  induction fuel with
  | zero => exact fun c => le_rfl
  | succ fuel ih =>
    intro c
    simp only [drainFuelSteps]
    split
    · exact Nat.zero_le _
    · split
      · exact Nat.zero_le _
      · exact Nat.succ_le_succ (ih _)

/-- Settles O36: DEC_PUSH by its measure, and the drain of DEC_TAKE, which begins with `CAP` empty, by its own fuel. -/
theorem resynchronisationTerminates : Obligations.ResynchronisationTerminates := by
  unfold Obligations.ResynchronisationTerminates
  refine ⟨fun c b rest hd hr d h => dstep_replay_lt hd hr h, ?_, ?_⟩
  · rintro d data size rfl
    have steps := pushSteps_le data (startScan d)
    have bound := stepMeasure_le (total := d.cap.length + d.replay.length + data.length) (ahead := d.replay.length + data.length)
      (by omega)
    simp only [scanMeasure, startScan_dec] at steps
    omega
  · rintro d size rfl
    have smaller : d.replay.length ≤ d.cap.length + d.replay.length := by omega
    calc drainSteps (startScan (clearCandidate d))
      _ ≤ drainBound (clearCandidate d) := drainFuelSteps_le_fuel _ _
      _ = d.replay.length * (d.replay.length + 1) := by simp [drainBound]
      _ ≤ _ := Nat.mul_le_mul smaller (Nat.succ_le_succ smaller)

/-! ### The loop of DEC_PUSH (R172) -/

/-- A scan that consumes nothing changes nothing. -/
theorem scanBytes_of_accepted_zero {c : Scan} {data : Bytes} (h : (scanBytes c data).2 = 0) : (scanBytes c data).1 = c := by
  rcases data with _ | ⟨b, rest⟩
  · rfl
  · by_cases hd : c.dec.dstate = .complete
    · rw [scanBytes_complete hd]
    · rw [scanBytes_cons hd] at h
      cases h

/-- Leading bytes of the consumed ones are consumed whole. -/
theorem scanBytes_take_accepted (data : Bytes) : ∀ (c : Scan) (j : Nat), j ≤ (scanBytes c data).2 →
    (scanBytes c (data.take j)).2 = j := by
  induction data with
  | nil =>
    intro c j hj
    rw [List.take_nil]
    exact (Nat.le_zero.mp hj).symm
  | cons b rest ih =>
    intro c j hj
    rcases j with _ | j
    · rfl
    · by_cases hd : c.dec.dstate = .complete
      · rw [scanBytes_complete hd] at hj
        cases hj
      · rw [scanBytes_cons hd] at hj
        rw [List.take_succ_cons, scanBytes_cons hd, ih _ j (Nat.le_of_succ_le_succ hj)]

/-- The scan goes on from where its leading bytes left it. -/
theorem scanBytes_split {c : Scan} {data : Bytes} {j : Nat} (h : j ≤ (scanBytes c data).2) : scanBytes c data =
    ((scanBytes (scanBytes c (data.take j)).1 (data.drop j)).1, j + (scanBytes (scanBytes c (data.take j)).1 (data.drop j)).2) := by
  have whole := scanBytes_take_accepted data c j h
  have hlen : (data.take j).length = j := List.length_take_of_le (h.trans (scanBytes_accepted data c).1)
  have parts := scanBytes_append (data.take j) (data.drop j) c (whole.trans hlen.symm)
  rwa [List.take_append_drop, hlen] at parts

/-- The consumed bytes alone lead to where the scan ends. -/
theorem scanBytes_take_self (c : Scan) (data : Bytes) : (scanBytes c (data.take (scanBytes c data).2)).1 = (scanBytes c data).1 := by
  have parts := scanBytes_split (c := c) (data := data) le_rfl
  have nothing := Nat.left_eq_add.mp (congrArg Prod.snd parts)
  exact (scanBytes_of_accepted_zero nothing).symm.trans (congrArg Prod.fst parts).symm

/-- Before each consumed byte the decoder is not Complete, and the byte is scanned and its queue drained (R172). -/
theorem scanBytes_round {c : Scan} {data : Bytes} {j : Nat} (h : j < (scanBytes c data).2) :
    (scanBytes c (data.take j)).1.dec.dstate ≠ .complete ∧ ∃ b, data[j]? = some b ∧
      (scanBytes c (data.take (j + 1))).1 = drain (dstep (scanBytes c (data.take j)).1 b) := by
  have hj : j < data.length := h.trans_le (scanBytes_accepted data c).1
  have running : (scanBytes c (data.take j)).1.dec.dstate ≠ .complete := by
    intro hd
    have parts := congrArg Prod.snd (scanBytes_split h.le)
    rw [scanBytes_complete hd] at parts
    exact h.ne' parts
  refine ⟨running, data[j], List.getElem?_eq_getElem hj, ?_⟩
  have whole := scanBytes_take_accepted data c j h.le
  rw [← List.take_append_getElem hj, scanBytes_append _ _ c (by rw [whole, List.length_take_of_le hj.le]), scanBytes_cons running]
  rfl

/-- Between two pushed bytes the queue is drained if it was at the start (R32, R172). -/
theorem scanBytes_drained {c : Scan} (data : Bytes) (h : Drained c) : Drained (scanBytes c data).1 :=
  scanBytes_induction (P := Drained) (fun _ _ _ _ => drain_drained _) data c h

/-- Settles O37: the loop's states are the scans of the leading bytes, `k` of them. -/
theorem decPushScansUntilComplete : Obligations.DecPushScansUntilComplete := by
  unfold Obligations.DecPushScansUntilComplete
  intro data s
  obtain ⟨hk, hmore⟩ := scanBytes_accepted data (startScan s.dec)
  have ending := scanBytes_take_self (startScan s.dec) data
  have response := responds_decPush s data
  rw [pushResponse, pushInv, pushDecoder, ← ending] at response
  refine ⟨rfl, pushAccepted s.dec data, fun j => (scanBytes (startScan s.dec) (data.take j)).1, _, rfl, hk, fun j hj => ?_, fun h => ?_,
    response, rfl, rfl⟩
  · obtain ⟨running, scanned⟩ := scanBytes_round hj
    exact ⟨running, fun hr => (scanBytes_drained (data.take j) hr).resolve_right running, scanned⟩
  · exact (congrArg (fun c => c.dec.dstate) ending).trans (hmore h)

/-! ### The commands (R170, R173, R175, R181, R285) -/

/-- Settles O38: the two answers of DEC_TAKE. -/
theorem decTakeReturnsTheHeldFrame : Obligations.DecTakeReturnsTheHeldFrame := by
  unfold Obligations.DecTakeReturnsTheHeldFrame
  refine ⟨rfl, fun s => ⟨fun held => ?_, fun hd => ⟨_, responds_decTake_noFrame s hd, rfl, rfl⟩⟩⟩
  have take := responds_decTake s held
  rw [doneFlags_eq, heldFrameFields] at take
  exact ⟨_, _, rfl, take, rfl, rfl⟩

/-- Settles O40: the cleared candidate and the emptied queue. -/
theorem decFlushAbandonsProgress : Obligations.DecFlushAbandonsProgress := by
  unfold Obligations.DecFlushAbandonsProgress
  exact ⟨rfl, fun s => ⟨_, responds_decFlush s, rfl, rfl⟩⟩

/-- In Complete a push consumes nothing and changes nothing (R170). -/
theorem push_complete {d : Decoder} (held : d.dstate = .complete) (data : Bytes) :
    pushDecoder d data = d ∧ pushInv d data = 0 ∧ pushAccepted d data = 0 := by
  simp only [pushDecoder, pushInv, pushAccepted, scanBytes_complete (c := startScan d) held, startScan_dec, startScan_ninv, and_self]

/-- Settles O41: a push scans nothing in Complete, and of the four commands that write the decoder only DEC_PUSH is left. -/
theorem heldFrameBlocksDecoding : Obligations.HeldFrameBlocksDecoding := by
  unfold Obligations.HeldFrameBlocksDecoding
  intro s held
  refine ⟨fun data => ?_, fun i htake hflush hrst => ?_, drain_of_drained (.inr held)⟩
  · obtain ⟨hdec, hinv, hk⟩ := push_complete held data
    have response := responds_decPush s data
    rw [pushResponse, hdec, hinv, hk, if_pos held] at response
    exact ⟨_, response, rfl, rfl⟩
  · obtain ⟨t, _, ht, -⟩ := exec_next i s
    refine ⟨t, ht, ?_⟩
    cases i with
    | rst => exact absurd rfl hrst
    | decTake => exact absurd rfl htake
    | decFlush => exact absurd rfl hflush
    | decPush data =>
      rw [exec_decPush] at ht
      cases ht
      exact (push_complete held data).1
    | cksClr | cksFeed | cksRead | encFrame | decStatus | gtcDecode | gtcEpoch | gtcConvert | illegal =>
      exact dec_of_not_writesDecoder rfl ht

/-- Settles O47: both responses begin with status OK. -/
theorem framingErrorsAreAbsorbed : Obligations.FramingErrorsAreAbsorbed := by
  unfold Obligations.FramingErrorsAreAbsorbed
  exact fun s => ⟨fun data => ⟨_, _, responds_decPush s data⟩, fun held => ⟨_, _, responds_decTake s held⟩⟩

end Sys2Proof.Laws
end

section
/-! The decoder's laws over whole streams (42_frame_decoder.md, section 4): pushes with other commands between them (R176), a frame with
one bit flipped (R178), and a corrupted frame with a valid one behind it (R179). -/

namespace Sys2Proof.Laws

open Sys2Proof.Machine

/-! ### Pushes with other commands between them (R176) -/

/-- A command that does not write the decoder is no push. -/
theorem pushedData_cons_of_not_writesDecoder {i : Instr} (hi : writesDecoder i = false) (rest : List Instr) :
    pushedData (i :: rest) = pushedData rest := by
  cases i with
  | rst | decPush | decTake | decFlush => cases hi
  | cksClr | cksFeed | cksRead | encFrame | decStatus | gtcDecode | gtcEpoch | gtcConvert | illegal => rfl

/-- The response to a command that does not write the decoder is no push's response. -/
theorem responsesToPushes_cons_of_not_writesDecoder {i : Instr} (hi : writesDecoder i = false) (rest : List Instr) (r : Bytes)
    (rs : List Bytes) : responsesToPushes (i :: rest) (r :: rs) = responsesToPushes rest rs := by
  cases i with
  | rst | decPush | decTake | decFlush => cases hi
  | cksClr | cksFeed | cksRead | encFrame | decStatus | gtcDecode | gtcEpoch | gtcConvert | illegal => rfl

/-- A list of commands begins with its first one (R58). -/
theorem execAll_cons {i : Instr} {s t : State} (h : exec i s = .next t) (rest : List Instr) :
    execAll (i :: rest) s = execAll rest t := by
  simp only [execAll, h]

/-- Commands of which only pushes write the decoder do to it what the pushes alone do, and the pushes respond as they would alone. -/
theorem execAll_pushes_among (cmds : List Instr) : ∀ s : State,
    (∀ i ∈ cmds, (∃ data, i = .decPush data) ∨ writesDecoder i = false) → ∃ (t : State) (rs : List Bytes),
      execAll cmds s = .next t ∧ t.dec = pushesDecoder s.dec (pushedData cmds) ∧
      ((∀ i ∈ cmds, writesCksAcc i = false) → t.cksAcc = s.cksAcc) ∧
      rs.length = cmds.length ∧ t.responses = s.responses ++ rs ∧
      responsesToPushes cmds rs = pushesResponses s.dec (pushedData cmds) := by
  induction cmds with
  | nil => exact fun s _ => ⟨s, [], rfl, rfl, fun _ => rfl, rfl, (List.append_nil _).symm, rfl⟩
  | cons i cmds ih =>
    intro s hw
    obtain ⟨hi, hcmds⟩ := List.forall_mem_cons.mp hw
    obtain ⟨u, r, hu, hresp, -, -⟩ := exec_next i s
    obtain ⟨t, rs, ht, hdec, hacc, hlen, hrs, hpush⟩ := ih u hcmds
    refine ⟨t, r :: rs, (execAll_cons hu cmds).trans ht, ?dec, fun hc => ?acc, congrArg Nat.succ hlen, ?responses, ?pushes⟩
    case acc =>
      obtain ⟨hci, hc⟩ := List.forall_mem_cons.mp hc
      exact (hacc hc).trans (cksAcc_of_not_writesCksAcc hci hu)
    case responses => rw [hrs, hresp, List.append_assoc, List.singleton_append]
    all_goals obtain ⟨data, rfl⟩ | hi := hi
    case dec.inl =>
      rw [exec_decPush] at hu
      cases hu
      exact hdec
    case dec.inr => rw [hdec, dec_of_not_writesDecoder hi hu, pushedData_cons_of_not_writesDecoder hi]
    case pushes.inl =>
      rw [exec_decPush] at hu
      cases hu
      obtain rfl := List.singleton_inj.mp (List.append_cancel_left hresp)
      exact congrArg (List.cons _) hpush
    case pushes.inr =>
      rw [responsesToPushes_cons_of_not_writesDecoder hi, pushedData_cons_of_not_writesDecoder hi, hpush,
        dec_of_not_writesDecoder hi hu]

/-- Settles O42: the commands before the last push do what their pushes alone do, and those compose by `pushes_append`. -/
theorem decodingIsResumable : Obligations.DecodingIsResumable := by
  unfold Obligations.DecodingIsResumable
  rintro s cmds ds last hw rfl - accepted
  obtain ⟨t, rs, ht, hdec, hacc, hlen, hrs, hpush⟩ := execAll_pushes_among cmds s hw
  obtain ⟨whole, inv, k⟩ := pushes_append (pushedData cmds) last s.dec accepted
  have lastPush := exec_decPush last t
  rw [hdec, hrs] at lastPush
  exact ⟨_, _, _, rs, rfl, (execAll_append _ _ _ _ ht).trans (execAll_cons lastPush []), exec_decPush _ s, whole.symm,
    fun hc => ⟨hacc hc, whole.symm⟩, hlen, rfl, hpush, rfl, inv, k, congrArg Decoder.dstate whole⟩

/-! ### One flipped bit (R178) -/

/-- A scanning step takes back no Invalid event. -/
theorem le_dstep_ninv (c : Scan) (b : Byte) : c.ninv ≤ (dstep c b).ninv := by
  by_cases hd : c.dec.dstate = .complete
  · rw [dstep_complete b hd]
  · rcases dstep_cases c b hd with e | e | e | ⟨_, _, _, _, _, _, e⟩ | e | e <;> rw [e]
    · exact Nat.le_succ c.ninv
    · exact le_rfl

/-- A drain takes back no Invalid event. -/
theorem le_drain_ninv {n : Nat} {c : Scan} (h : n ≤ c.ninv) : n ≤ (drain c).ninv :=
  drain_induction (P := fun c => n ≤ c.ninv) (fun c b rest _ _ h => h.trans (le_dstep_ninv (setReplay c rest) b)) c h

/-- A push takes back no Invalid event: one at its first byte is among its `inv`. -/
theorem le_pushInv_cons {d : Decoder} {b : Byte} (hd : d.dstate ≠ .complete) (rest : Bytes) :
    (dstep (startScan d) b).ninv ≤ pushInv d (b :: rest) := by
  rw [pushInv, scanBytes_cons (c := startScan d) hd]
  exact scanBytes_induction (P := fun c => (dstep (startScan d) b).ninv ≤ c.ninv)
    (fun c x _ h => le_drain_ninv (h.trans (le_dstep_ninv c x))) rest _ (le_drain_ninv le_rfl)

/-- Changing a byte in the middle of three pieces. -/
theorem modify_append_middle (a b c : Bytes) (f : Byte → Byte) {k : Nat} (hk : k < b.length) :
    (a ++ (b ++ c)).modify (a.length + k) f = a ++ (b.modify k f ++ c) := by
  rw [List.modify_eq_set, List.modify_eq_set, List.set_append_right _ _ (Nat.le_add_right _ _), Nat.add_sub_cancel_left,
    List.set_append_left _ _ hk, List.getElem?_append_right (Nat.le_add_right _ _), Nat.add_sub_cancel_left,
    List.getElem?_append_left hk]

/-- A frame with one bit of its payload or checksum byte flipped has another payload and checksum byte, which do not belong together: the
flip shows in the checksum of the two together, which was 0 (R121). -/
theorem frameOf_flipped {payload : Bytes} {i j : Nat} (hj : j < 8) (h4 : 4 ≤ i) (hi : i ≤ 4 + payload.length) : ∃ p b,
    (frameOf payload).modify i (· ^^^ (1#8 <<< j)) = [start1, start2] ++ beBytes 2 payload.length ++ p ++ b :: [end1, end2] ∧
    p.length = payload.length ∧ b ≠ cks p := by
  obtain ⟨k, rfl⟩ := Nat.exists_eq_add_of_le h4
  have hk : k < (payload ++ [cks payload]).length := by simp only [List.length_append, List.length_singleton]; omega
  have flipped := modify_append_middle ([start1, start2] ++ beBytes 2 payload.length) _ [end1, end2] (· ^^^ (1#8 <<< j)) hk
  have sum := cks_modify_xor (1#8 <<< j) hk
  have hlen := List.length_modify (· ^^^ (1#8 <<< j)) (payload ++ [cks payload]) k
  obtain ⟨p, b, hbody⟩ : ∃ p b, (payload ++ [cks payload]).modify k (· ^^^ (1#8 <<< j)) = p ++ [b] :=
    (List.eq_nil_or_concat' _).resolve_left (List.ne_nil_of_length_pos (by rw [hlen]; omega))
  rw [hbody] at flipped sum hlen
  refine ⟨p, b, ?_, by simpa using hlen, ?_⟩
  · simpa [frameOf] using flipped
  · rintro rfl
    rw [cks_append, cks_append, cks_singleton, cks_singleton, BitVec.xor_self, BitVec.xor_self] at sum
    exact xor_oneBit_ne hj 0 sum.symm

/-- From SeekStart1 with nothing queued, a header and its payload raise no event and lead to ReadChecksum (R178). -/
theorem scanBytes_to_checksum {c : Scan} {hi lo : Byte} {p : Bytes} (h : c.dec.dstate = .seekStart1) (hr : c.dec.replay = [])
    (hp : p.length = be [hi, lo]) :
    scanBytes c ([start1, start2, hi, lo] ++ p) = ({ c with dec :=
      { c.dec with
        dstate := .readChecksum
        dlen := BitVec.ofNat 16 p.length
        dcnt := BitVec.ofNat 16 p.length
        dcs := cks p
        cap := [start1, start2, hi, lo] ++ p } }, 4 + p.length) := by
  have header := scanBytes_header hi lo h hr
  have fits : p.length < 2 ^ 16 := hp.trans_lt ((be_lt [hi, lo]).trans_eq (by simp))
  have body := scanBytes_whole_payload (c := (scanBytes c [start1, start2, hi, lo]).1) (p := p)
    (by rw [header]) (by rw [header]; exact hr) (by rw [header]) (by rw [header])
    (by rw [header, ← hp, BitVec.toNat_ofNat, Nat.mod_eq_of_lt fits])
  rw [header, ← hp] at body
  rw [scanBytes_append _ _ c (by rw [header]; rfl), header, ← hp, body]
  rfl

section WrongChecksum
variable {d : Decoder} {hi lo b : Byte} {p : Bytes}

/-- A push of a header and its payload raises no event and leads to ReadChecksum (R178). -/
theorem push_to_checksum (h : d.dstate = .seekStart1) (hr : d.replay = []) (hp : p.length = be [hi, lo]) :
    pushAccepted d ([start1, start2, hi, lo] ++ p) = 4 + p.length ∧ pushInv d ([start1, start2, hi, lo] ++ p) = 0 ∧
    pushDecoder d ([start1, start2, hi, lo] ++ p) =
      { d with
        dstate := .readChecksum
        dlen := BitVec.ofNat 16 p.length
        dcnt := BitVec.ofNat 16 p.length
        dcs := cks p
        cap := [start1, start2, hi, lo] ++ p } := by
  have read := scanBytes_to_checksum (c := startScan d) h hr hp
  simp only [pushAccepted, pushInv, pushDecoder, read, startScan_ninv, startScan_dec, and_self]

/-- A wrong checksum byte is an Invalid event at that byte (R166, R178). -/
theorem dstep_wrong_checksum {c : Scan} (h : c.dec.dstate = .readChecksum) (hb : b ≠ c.dec.dcs) :
    dstep c b = invalid (capture c b) := by
  rw [dstep_readChecksum b h, dstepReadChecksum, if_neg hb]

/-- Whatever is pushed behind a wrong checksum byte, the push reports its Invalid event (R178). -/
theorem one_le_pushInv_of_wrong_checksum (h : d.dstate = .seekStart1) (hr : d.replay = []) (hp : p.length = be [hi, lo]) (hb : b ≠ cks p)
    (rest : Bytes) : 1 ≤ pushInv d ([start1, start2, hi, lo] ++ p ++ b :: rest) := by
  obtain ⟨accepted, quiet, hdec⟩ := push_to_checksum h hr hp
  have whole : ([start1, start2, hi, lo] ++ p).length = 4 + p.length := List.length_append
  have running : (pushDecoder d ([start1, start2, hi, lo] ++ p)).dstate ≠ .complete := by rw [hdec]; exact nofun
  have event := le_pushInv_cons (b := b) running rest
  rw [dstep_wrong_checksum (by rw [hdec]; rfl) (by rw [hdec]; exact hb)] at event
  rw [(push_append d _ (b :: rest) (accepted.trans whole.symm)).2.1, quiet, Nat.zero_add]
  exact event

end WrongChecksum

/-- Settles O43: the flipped frame's checksum byte is wrong for its payload, and no later byte takes the Invalid event back. -/
theorem singleBitErrorsAreInvalid : Obligations.SingleBitErrorsAreInvalid := by
  unfold Obligations.SingleBitErrorsAreInvalid
  refine ⟨?_, ⟨_, rfl, by decide, by decide⟩, ⟨_, rfl, by decide, by decide⟩⟩
  rintro d payload f i j fits hj h4 hi h hr rfl
  obtain ⟨p, b, hflip, hlen, hb⟩ := frameOf_flipped hj h4 hi
  obtain ⟨hi, lo, hfield⟩ : ∃ hi lo, beBytes 2 payload.length = [hi, lo] := ⟨_, _, rfl⟩
  have hp : p.length = be [hi, lo] := by rw [← hfield, be_beBytes_count fits, hlen]
  have reported := one_le_pushInv_of_wrong_checksum h hr hp hb
  obtain ⟨accepted, quiet, hdec⟩ := push_to_checksum h hr hp
  have event := dstep_wrong_checksum (c := startScan (pushDecoder d ([start1, start2, hi, lo] ++ p))) (b := b) (by rw [hdec]; rfl)
    (by rw [hdec]; exact hb)
  rw [hfield] at hflip
  change _ = [start1, start2, hi, lo] ++ p ++ b :: [end1, end2] at hflip
  generalize hfront : [start1, start2, hi, lo] ++ p = front at *
  have whole : front.length = 4 + payload.length := by rw [← hfront, List.length_append, hlen]; rfl
  have untilChecksum : (front ++ b :: [end1, end2]).take (4 + payload.length) = front := List.take_left' whole
  have withChecksum : (front ++ b :: [end1, end2]).take (5 + payload.length) = front ++ [b] := by
    rw [List.append_cons]
    exact List.take_left' (by rw [List.length_append, whole, List.length_singleton, Nat.add_right_comm])
  have checksum : (front ++ b :: [end1, end2])[4 + payload.length]? = some b := by
    rw [← whole, List.getElem?_append_right le_rfl, Nat.sub_self, List.getElem?_cons_zero]
  rw [hflip, untilChecksum, withChecksum]
  refine ⟨by rw [accepted, hlen], quiet, by rw [hdec], by rw [hdec], by rw [hdec], ⟨b, checksum, ?_⟩, reported [], reported _⟩
  rw [event]
  exact ⟨rfl, rfl⟩

/-! ### A corrupted frame with a valid one behind it (R179) -/

/-- Bytes other than START1 are discarded in SeekStart1 (R161). -/
theorem scanBytes_discard {data : Bytes} (hdata : start1 ∉ data) {c : Scan} (h : c.dec.dstate = .seekStart1) (hr : c.dec.replay = []) :
    scanBytes c data = (c, data.length) := by
  induction data with
  | nil => rfl
  | cons b rest ih =>
    obtain ⟨hb, hrest⟩ := List.ne_and_not_mem_of_not_mem_cons hdata
    have discarded : dstep c b = c := by rw [dstep_seekStart1 b h, dstepSeekStart1, if_neg (Ne.symm hb)]
    rw [scanBytes_cons_of_empty (by rw [h]; decide) (by rw [discarded, hr]), discarded, ih hrest]
    rfl

/-- Queued bytes other than START1 are discarded in SeekStart1 (R161, R171). -/
theorem drain_discard {queue : Bytes} (hqueue : start1 ∉ queue) {c : Scan} (h : c.dec.dstate = .seekStart1) (hr : c.dec.replay = queue) :
    drain c = setReplay c [] := by
  induction queue generalizing c with
  | nil =>
    rw [drain_of_drained (.inl hr), ← hr]
    rfl
  | cons b rest ih =>
    obtain ⟨hb, hrest⟩ := List.ne_and_not_mem_of_not_mem_cons hqueue
    have discarded : dstep (setReplay c rest) b = setReplay c rest := by
      rw [dstep_seekStart1 b (c := setReplay c rest) h, dstepSeekStart1, if_neg (Ne.symm hb)]
    rw [drain_of_replay (by rw [h]; decide) hr, discarded, ih hrest (c := setReplay c rest) h rfl]
    rfl

/-- The candidate's only START1 is its first byte. -/
def OneStart1 (c : Scan) : Prop := c.dec.cap ≠ [] ∧ start1 ∉ c.dec.cap.tail

theorem OneStart1.capture {c : Scan} {b : Byte} (h : OneStart1 c) (hb : start1 ≠ b) : OneStart1 (capture c b) := by
  obtain ⟨hne, htail⟩ := h
  refine ⟨List.concat_ne_nil _ _, ?_⟩
  rw [Machine.capture, List.tail_append_of_ne_nil hne]
  exact mt List.mem_append.mp (not_or.mpr ⟨htail, mt List.mem_singleton.mp hb⟩)

/-- A candidate given up with an Invalid event and nothing left of it to scan again. -/
def abandon (c : Scan) : Scan := setReplay (invalid c) []

section Abandon
variable {c : Scan} {b : Byte} {rest : Bytes}

/-- A candidate with one START1 is abandoned whole by its Invalid event, and what is left of its frame is discarded (R168, R171). -/
theorem scanBytes_abandon (hd : c.dec.dstate ≠ .complete) (hr : c.dec.replay = []) (hone : OneStart1 c) (hno : start1 ∉ b :: rest)
    (event : dstep c b = invalid (capture c b)) : scanBytes c (b :: rest) = (abandon c, rest.length + 1) := by
  obtain ⟨hb, hrest⟩ := List.ne_and_not_mem_of_not_mem_cons hno
  have queued : (invalid (capture c b)).dec.replay = (capture c b).dec.cap.tail := by
    rw [invalid_replay, List.drop_one]
    exact (congrArg (_ ++ ·) hr).trans (List.append_nil _)
  have drained : drain (invalid (capture c b)) = abandon c := drain_discard (hone.capture hb).2 rfl queued
  rw [scanBytes_cons hd, event, drained, scanBytes_discard hrest rfl rfl]

/-- A byte of the trailer abandons the candidate if it is wrong, so it is enough that the later ones do if it is right (R166, R167). -/
theorem scanBytes_check {expected : Byte} {next : DState} (hd : c.dec.dstate ≠ .complete) (hr : c.dec.replay = []) (hone : OneStart1 c)
    (hno : start1 ∉ b :: rest) (check : dstep c b = if b = expected then goto (capture c b) next else invalid (capture c b))
    (later : b = expected → scanBytes (goto (capture c b) next) rest = (abandon c, rest.length)) :
    scanBytes c (b :: rest) = (abandon c, rest.length + 1) := by
  by_cases hb : b = expected
  · rw [if_pos hb] at check
    rw [scanBytes_cons_of_empty hd (by rw [check]; exact hr), check, later hb]
  · rw [if_neg hb] at check
    exact scanBytes_abandon hd hr hone hno check

end Abandon

section WrongTrailer
variable {c : Scan} {x y z : Byte}

/-- A wrong END2 abandons the candidate (R167). -/
theorem scanBytes_wrong_end2 (h : c.dec.dstate = .readEnd2) (hr : c.dec.replay = []) (hone : OneStart1 c) (hno : start1 ∉ [z])
    (hbad : z ≠ end2) : scanBytes c [z] = (abandon c, 1) := by
  refine scanBytes_abandon (by rw [h]; decide) hr hone hno ?_
  rw [dstep_readEnd2 z h, dstepReadEnd2, if_neg hbad]

/-- A wrong end marker abandons the candidate (R167). -/
theorem scanBytes_wrong_end (h : c.dec.dstate = .readEnd1) (hr : c.dec.replay = []) (hone : OneStart1 c) (hno : start1 ∉ [y, z])
    (hbad : [y, z] ≠ [end1, end2]) : scanBytes c [y, z] = (abandon c, 2) := by
  obtain ⟨hy, hz⟩ := List.ne_and_not_mem_of_not_mem_cons hno
  refine scanBytes_check (by rw [h]; decide) hr hone hno (dstep_readEnd1 y h) fun right => ?_
  exact scanBytes_wrong_end2 rfl hr (hone.capture hy) hz fun hz => hbad (by rw [right, hz])

/-- A wrong trailer abandons the candidate (R166, R167). -/
theorem scanBytes_wrong_trailer (h : c.dec.dstate = .readChecksum) (hr : c.dec.replay = []) (hone : OneStart1 c)
    (hno : start1 ∉ [x, y, z]) (hbad : [x, y, z] ≠ [c.dec.dcs, end1, end2]) : scanBytes c [x, y, z] = (abandon c, 3) := by
  obtain ⟨hx, hyz⟩ := List.ne_and_not_mem_of_not_mem_cons hno
  refine scanBytes_check (by rw [h]; decide) hr hone hno (dstep_readChecksum x h) fun right => ?_
  exact scanBytes_wrong_end rfl hr (hone.capture hx) hyz fun hyz => hbad (by rw [right, hyz])

end WrongTrailer

/-- A frame that fails its check, with no second START1 in it, is one Invalid event and leaves nothing behind (R179). -/
theorem push_corrupted {d : Decoder} {hi lo x y z : Byte} {p : Bytes} (h : d.dstate = .seekStart1) (hr : d.replay = [])
    (hp : p.length = be [hi, lo]) (hbad : [x, y, z] ≠ [cks p, end1, end2]) (hno : start1 ∉ [start2, hi, lo] ++ p ++ [x, y, z]) :
    pushAccepted d ([start1, start2, hi, lo] ++ p ++ [x, y, z]) = ([start1, start2, hi, lo] ++ p ++ [x, y, z]).length ∧
    pushInv d ([start1, start2, hi, lo] ++ p ++ [x, y, z]) = 1 ∧
    pushDecoder d ([start1, start2, hi, lo] ++ p ++ [x, y, z]) =
      { clearCandidate d with replay := [], invCnt := d.invCnt + 1 } := by
  have read := scanBytes_to_checksum (c := startScan d) h hr hp
  have whole : ([start1, start2, hi, lo] ++ p).length = 4 + p.length := List.length_append
  have both := scanBytes_append ([start1, start2, hi, lo] ++ p) [x, y, z] (startScan d) (by rw [read, whole])
  obtain ⟨hfront, htrailer⟩ := not_or.mp <| mt List.mem_append.mpr hno
  have trailer := scanBytes_wrong_trailer (c := (scanBytes (startScan d) ([start1, start2, hi, lo] ++ p)).1) (by rw [read])
    (by rw [read]; exact hr) (by rw [read]; exact ⟨List.cons_ne_nil _ _, hfront⟩) htrailer (by rw [read]; exact hbad)
  rw [trailer, read] at both
  rw [List.length_append (bs := [x, y, z])]
  simp only [pushAccepted, pushInv, pushDecoder, both]
  exact ⟨rfl, rfl, rfl⟩

/-- Conditions (i) to (iii) of R179, byte by byte. -/
theorem exists_corrupted {c : Bytes} {len : Nat} (h0 : slice c 0 2 = [start1, start2]) (hdecl : len = be (slice c 2 4))
    (hlen : c.length = len + 7) (hbad : slice c (4 + len) (7 + len) ≠ [cks (slice c 4 (4 + len)), end1, end2]) :
    ∃ hi lo p x y z, c = [start1, start2, hi, lo] ++ p ++ [x, y, z] ∧ p.length = be [hi, lo] ∧ [x, y, z] ≠ [cks p, end1, end2] := by
  have first : slice c 0 1 = [start1] := by simpa [slice, List.take_take] using congrArg (List.take 1) h0
  have second : slice c 1 2 = [start2] := by simpa [slice, List.drop_take] using congrArg (List.drop 1) h0
  obtain ⟨hi, lo, p, tr, rfl, hp, htr⟩ := exists_candidate (n := len) (m := 3) (by omega) first second
  obtain ⟨x, y, z, rfl⟩ := List.length_eq_three.mp htr
  rw [slice_candidate_length, ← hp] at hdecl
  have trailer := slice_candidate_trailer hi lo p [x, y, z] 0 3
  rw [Nat.add_zero, Nat.add_right_comm] at trailer
  rw [← hp, slice_candidate_payload, trailer] at hbad
  exact ⟨hi, lo, p, x, y, z, rfl, hdecl, hbad⟩

/-- V-D14's nested frame inside a candidate that R179's condition (ii) allows. -/
def nestedFrame : Bytes := [0xA0#8, 0xA1#8, 0x00#8, 0x09#8] ++ frameOf [0x83#8, 0x01#8] ++ [0x77#8, 0x0D#8, 0x0A#8]

/-- Settles O44: the corrupted frame leaves SeekStart1 and an empty queue, from where the valid frame is decoded whole. -/
theorem resynchronisationOutcome : Obligations.ResynchronisationOutcome := by
  unfold Obligations.ResynchronisationOutcome
  refine ⟨?_, nestedFrame, [0x64#8, 0x20#8], 9, by decide, by decide, by decide, by decide, by decide, by decide, by decide⟩
  intro s c payload len fits _ h hr h0 hdecl hlen hbad hno
  obtain ⟨hi, lo, p, x, y, z, rfl, hp, hbad⟩ := exists_corrupted h0 hdecl hlen hbad
  obtain ⟨accepted, one, hdec⟩ := push_corrupted h hr hp hbad hno
  generalize [start1, start2, hi, lo] ++ p ++ [x, y, z] = c at *
  obtain ⟨hframe, valid, quiet, held⟩ := everyPayloadDecodes (pushDecoder s.dec c) payload fits (by rw [hdec]; rfl) (by rw [hdec])
  obtain ⟨whole, inv, k⟩ := push_append s.dec c (frameOf payload) accepted
  rw [held, hdec] at whole
  rw [one, quiet] at inv
  rw [valid, ← hframe, ← List.length_append] at k
  obtain ⟨t, push, ht⟩ : ∃ t, Responds (.decPush (c ++ frameOf payload)) s t (pushResponse s.dec (c ++ frameOf payload)) ∧
      t.dec = pushDecoder s.dec (c ++ frameOf payload) := ⟨_, responds_decPush s _, rfl⟩
  rw [pushResponse, k, inv, if_pos (by rw [whole]), List.append_assoc] at push
  rw [whole] at ht
  obtain ⟨u, take⟩ := responds_decTake_frameOf (s := t) (payload := payload) (by rw [ht]) (by rw [ht]) (by rw [ht])
    (by rw [ht]; exact Nat.mod_eq_of_lt (Nat.lt_succ_of_le fits))
  exact ⟨t, u, push, by rw [ht], by rw [ht]; rfl, take⟩

end Sys2Proof.Laws
end

section
/-! The GPS time converter (43_gps_time.md): the record GTC_DECODE reads is the payload's bytes 16 to 28 and determines every result, and
the exact seconds and nanoseconds of a record with their ranges. -/

namespace Sys2Proof.Laws

open Sys2Proof.Machine

/-! ### Reading the record (R210, R213) -/

theorem drop_slice (s : Bytes) (i j k : Nat) : (slice s i j).drop k = slice s (i + k) j := by
  simp only [slice, List.drop_take, List.drop_drop, Nat.sub_sub]

theorem opRead_lt (s : Bytes) (off n : Nat) : opRead s off n < 256 ^ n := by
  have short : (slice s off (off + n)).length ≤ n := (List.length_take_le _ _).trans (Nat.add_sub_cancel_left off n).le
  exact (be_lt _).trans_le (Nat.pow_le_pow_right (by decide) short)

/-- A field wide enough for `n` bytes holds the value read from them. -/
theorem toNat_ofNat_opRead {w n : Nat} (h : 256 ^ n ≤ 2 ^ w) (s : Bytes) (off : Nat) :
    (BitVec.ofNat w (opRead s off n)).toNat = opRead s off n := by
  rw [BitVec.toNat_ofNat, Nat.mod_eq_of_lt ((opRead_lt s off n).trans_le h)]

/-- The record's last three bytes are fields of one byte each (R78). -/
theorem drop_timeRecordBytes (t : GpsTime) : (timeRecordBytes t).drop 10 = [t.defleap, t.curleap, t.valid] :=
  List.drop_left' (by simp only [List.length_append, beBytes_length])

theorem timeRecordBytes_gdecode {p : Bytes} (h : 29 ≤ p.length) : timeRecordBytes (gdecode p) = slice p 16 29 :=
  timeRecordBytes_timeRecordAt h

/-- The decoded record is read from payload bytes 16 to 28 alone (R216). -/
theorem gdecode_eq_of_slice_eq {p q : Bytes} (hp : 29 ≤ p.length) (hq : 29 ≤ q.length) (h : slice p 16 29 = slice q 16 29) :
    gdecode p = gdecode q := by
  have fromBytes (t : GpsTime) : timeRecordAt (timeRecordBytes t) 0 = t := by
    simpa only [List.append_nil] using timeRecordAt_timeRecordBytes t []
  rw [← fromBytes (gdecode p), timeRecordBytes_gdecode hp, h, ← timeRecordBytes_gdecode hq, fromBytes]

/-- Settles O49: the response is the record's own bytes, read back from the payload's bytes 16 to 28. -/
theorem gtcDecodeReturnsTheRecord : Obligations.GtcDecodeReturnsTheRecord := by
  unfold Obligations.GtcDecodeReturnsTheRecord
  refine fun p s => ⟨rfl, fun hp => ?_, fun hp => ⟨_, responds_gtcDecode_truncated s p hp, rfl, rfl⟩⟩
  have response := responds_gtcDecode s p hp
  rw [timeRecordBytes_gdecode hp] at response
  refine ⟨_, response, ⟨rfl, rfl⟩, toNat_ofNat_opRead (by decide) p 16, toNat_ofNat_opRead (by decide) p 20,
    toNat_ofNat_opRead (by decide) p 24, ?_⟩
  rw [← drop_slice p 16 29 10, ← timeRecordBytes_gdecode hp, drop_timeRecordBytes]

/-- Settles O51: the three responses written out. -/
theorem gtcConvertDecodesAndConverts : Obligations.GtcConvertDecodesAndConverts := by
  unfold Obligations.GtcConvertDecodesAndConverts
  exact fun p s => ⟨rfl,
    fun hp => ⟨_, _, _, _, _, responds_gtcDecode s p hp, responds_gtcEpoch s (gdecode p), responds_gtcConvert s p hp, rfl, rfl⟩,
    fun hp => ⟨_, responds_gtcConvert_truncated s p hp, rfl, rfl⟩⟩

/-- Settles O54: equal record bytes decode to the same record, and `gepoch` looks at neither `curleap` nor `valid`. -/
theorem converterReadsOnlyTheRecord : Obligations.ConverterReadsOnlyTheRecord := by
  unfold Obligations.ConverterReadsOnlyTheRecord
  refine ⟨fun p q s hp hq h => ⟨?_, ?_, ⟨_, _, responds_gtcDecode s p hp⟩, ⟨_, _, responds_gtcConvert s p hp⟩⟩, fun _ _ _ => rfl⟩
  · rw [(responds_gtcDecode s p hp).1, (responds_gtcDecode s q hq).1, gdecode_eq_of_slice_eq hp hq h]
  · rw [(responds_gtcConvert s p hp).1, (responds_gtcConvert s q hq).1, gdecode_eq_of_slice_eq hp hq h]

/-! ### Converting the record (R211, R212, R214, R217) -/

/-- `int8` is the two's-complement value of a byte (R12). -/
theorem int8_eq_toInt (b : Byte) : int8 b = b.toInt := by
  rw [int8, BitVec.toInt_eq_toNat_cond]
  split <;> split <;> omega

theorem gepoch_sec (t : GpsTime) :
    (gepoch t).sec = 315964800 + (t.wn.toNat : Int) * 604800 + (t.tow.toNat : Int) / 1000 - t.defleap.toInt := by
  simp only [gepoch, secExact, int8_eq_toInt, Int.natCast_ediv]
  rfl

theorem gepoch_ns_toNat (t : GpsTime) : (gepoch t).ns.toNat = nsExact t % 2 ^ 32 := BitVec.toNat_ofNat _ _

theorem gepoch_nsOvf_iff (t : GpsTime) : (gepoch t).nsOvf = true ↔ 2 ^ 32 ≤ nsExact t := decide_eq_true_iff

/-- The fields of GTC_EPOCH's response, of the exact sums (R53, R214). -/
theorem epochFields_gepoch (t : GpsTime) : epochFields (gepoch t) =
    beBytes 8 ((gepoch t).sec % 2 ^ 64).toNat ++ beBytes 4 (nsExact t % 2 ^ 32) ++ [if 2 ^ 32 ≤ nsExact t then 0x01#8 else 0x00#8] := by
  simp only [epochFields, gepoch_ns_toNat, flagsByte, gepoch_nsOvf_iff]

/-- Settles O50: the response's fields are those of the exact seconds and nanoseconds. -/
theorem gtcEpochConvertsTheRecord : Obligations.GtcEpochConvertsTheRecord := by
  unfold Obligations.GtcEpochConvertsTheRecord
  intro rc s
  have response := responds_gtcEpoch s rc
  rw [epochFields_gepoch] at response
  exact ⟨rfl, _, (gepoch rc).sec, nsExact rc, gepoch_sec rc, rfl, response, rfl, rfl⟩

/-- The milliseconds give at most 999 million nanoseconds and the sub-millisecond field at most `2^32 - 1` (R212). -/
theorem nsExact_le (t : GpsTime) : nsExact t ≤ 5293967295 := by
  have hstow := t.stow.isLt
  rw [nsExact]
  omega

/-- The record of the greatest nanosecond sum (R212). -/
def latestNanoseconds : GpsTime := { tow := 999, stow := 0xFFFFFFFF#32, wn := 0, defleap := 0, curleap := 0, valid := 0 }

theorem nsExact_latestNanoseconds : nsExact latestNanoseconds = 5293967295 := by decide

/-- The sum is below `2 * 2^32`, so one bit holds all of it that `ns` does not (R212). -/
theorem nsExact_eq_ns_add_overflow (t : GpsTime) :
    nsExact t = (gepoch t).ns.toNat + if (gepoch t).nsOvf then 2 ^ 32 else 0 := by
  have bound := nsExact_le t
  simp only [gepoch_ns_toNat, gepoch_nsOvf_iff]
  split <;> omega

/-- Settles O52: one overflow bit is enough for the greatest sum, and the seconds do not look at the sub-millisecond field. -/
theorem nanosecondOverflowLosesNothing : Obligations.NanosecondOverflowLosesNothing := by
  unfold Obligations.NanosecondOverflowLosesNothing
  exact ⟨fun t => ⟨nsExact_eq_ns_add_overflow t, gepoch_ns_toNat t, gepoch_nsOvf_iff t, nsExact_le t, fun _ => rfl⟩,
    latestNanoseconds, nsExact_latestNanoseconds⟩

/-- The seconds are extremal where the week and the time of week are and the leap seconds are at the opposite bound (R217). -/
theorem gepoch_sec_bounds (t : GpsTime) : 315964673 ≤ (gepoch t).sec ∧ (gepoch t).sec ≤ 39955827895 := by
  have hwn := t.wn.isLt
  have htow := t.tow.isLt
  have hlo := t.defleap.le_toInt
  have hhi := t.defleap.toInt_le
  rw [gepoch_sec]
  omega

/-- Settles O53: each field at its bound, in the sum of `gepoch_sec`. -/
theorem epochRanges : Obligations.EpochRanges := by
  unfold Obligations.EpochRanges
  refine ⟨fun t => ⟨(gepoch_sec_bounds t).1, (gepoch_sec_bounds t).2, nsExact_le t⟩, fun t hwn htow hdef => ⟨?first, ?noNanoseconds⟩,
    fun t hwn htow hdef => ?last, latestNanoseconds, nsExact_latestNanoseconds⟩
  case first => simp [gepoch_sec, hwn, htow, hdef]
  case noNanoseconds =>
    intro hstow
    rw [nsExact, htow, hstow]
    rfl
  case last =>
    rw [gepoch_sec, hwn, htow, hdef]
    rfl

end Sys2Proof.Laws
end

section
/-! The control unit (44_control.md): a block at reset is the block of `State.reset`, and RST brings every block there. Power-on reset
clears the same elements, so the two agree on the whole block. -/

namespace Sys2Proof.Laws

open Sys2Proof.Machine

/-- R36's table names every element of the block, so it leaves no choice. -/
theorem atReset_iff {s : State} : AtReset s ↔ s.cksAcc = 0x00#8 ∧ s.dec = Decoder.reset := by
  constructor
  · rintro ⟨hacc, hdstate, hdlen, hdcnt, hdcs, hcap, hreplay, hinv, hfrm⟩
    refine ⟨hacc, ?_⟩
    calc s.dec = ⟨s.dec.dstate, s.dec.dlen, s.dec.dcnt, s.dec.dcs, s.dec.cap, s.dec.replay, s.dec.invCnt, s.dec.frmCnt⟩ := rfl
      _ = Decoder.reset := by rw [hdstate, hdlen, hdcnt, hdcs, hcap, hreplay, hinv, hfrm]; rfl
  · rintro ⟨hacc, hdec⟩
    exact atReset_of_eq hacc hdec

/-- Blocks at reset do not differ (R36). -/
theorem sameBlock_of_atReset {s t : State} (hs : AtReset s) (ht : AtReset t) : SameBlock s t := by
  obtain ⟨sacc, sdec⟩ := atReset_iff.mp hs
  obtain ⟨tacc, tdec⟩ := atReset_iff.mp ht
  exact ⟨tacc.trans sacc.symm, tdec.trans sdec.symm⟩

theorem atReset_powerOnReset (s : State) : AtReset (powerOnReset s) :=
  atReset_of_eq (powerOnReset_cksAcc s) (powerOnReset_dec s)

/-- SeekStart1 has code 0, and every other field of the status at reset is a count or a sum of nothing (R36, R174). -/
theorem statusFields_reset : statusFields Decoder.reset = List.replicate 20 0x00#8 := by decide

/-- The status right after a reset of any kind (R240, R281). -/
theorem responds_decStatus_of_atReset {s : State} (hs : AtReset s) :
    ∃ t, Responds .decStatus s t (List.replicate 21 0x00#8) := by
  have response := responds_decStatus s
  rw [(atReset_iff.mp hs).2, statusFields_reset] at response
  exact ⟨_, response⟩

/-- Settles O18: RST leaves the block at reset, and what it agrees with, keeps and reports afterwards follows from that alone. -/
theorem rstResetsTheWholeBlock : Obligations.RstResetsTheWholeBlock := by
  unfold Obligations.RstResetsTheWholeBlock
  refine ⟨rfl, fun s => ⟨powerOnReset_responses s, (resetBlock s).addResponse [0x00#8], responds_rst s, ?_⟩⟩
  have atReset : AtReset ((resetBlock s).addResponse [0x00#8]) := atReset_of_eq (resetBlock_cksAcc s) (resetBlock_dec s)
  exact ⟨atReset, sameBlock_of_atReset (atReset_powerOnReset s) atReset, fun hs => sameBlock_of_atReset hs atReset,
    responds_decStatus_of_atReset atReset⟩

end Sys2Proof.Laws
end

section
/-! Exceptions (60_exceptions.md): R251's table of causes as a relation. What has a cause in it answers that status and has no other
effect; what has none answers status OK. Both laws of the error statuses follow from that split. -/

namespace Sys2Proof.Laws

open Sys2Proof.Machine

/-- R251's table: `Raises s i e` when it names a cause for `i` to raise `e` in `s`. -/
inductive Raises (s : State) : Instr → Status → Prop where
  | illegal (op : Byte) : Raises s (.illegal op) .illegal
  | badLen (id : Byte) (body : Bytes) (long : 65534 < body.length) : Raises s (.encFrame id body) .badLen
  | truncatedDecode {p : Bytes} (short : p.length < 29) : Raises s (.gtcDecode p) .truncated
  | truncatedConvert {p : Bytes} (short : p.length < 29) : Raises s (.gtcConvert p) .truncated
  | noFrame (free : s.dec.dstate ≠ .complete) : Raises s .decTake .noFrame

/-- A cause is enough (R252): the status is the response, and adding it the only effect. -/
theorem Raises.responds {s : State} {i : Instr} {e : Status} (h : Raises s i e) :
    Responds i s (s.addResponse [statusCode e]) [statusCode e] := by
  cases h with
  | illegal op => exact responds_illegal s op
  | badLen id body long => exact responds_encFrame_badLen s body id long
  | truncatedDecode short => exact responds_gtcDecode_truncated s _ short
  | truncatedConvert short => exact responds_gtcConvert_truncated s _ short
  | noFrame free => exact responds_decTake_noFrame s free

/-- Without a cause, the command ends with status OK. -/
theorem raises_or_responds_ok (i : Instr) (s : State) :
    (∃ e, Raises s i e) ∨ ∃ t fields, Responds i s t (0x00#8 :: fields) := by
  cases i with
  | rst => exact .inr ⟨_, _, responds_rst s⟩
  | cksClr => exact .inr ⟨_, _, responds_cksClr s⟩
  | cksFeed data => exact .inr ⟨_, _, responds_cksFeed s data⟩
  | cksRead => exact .inr ⟨_, _, responds_cksRead s⟩
  | encFrame id body =>
    obtain fits | long := le_or_gt body.length 65534
    · exact .inr ⟨_, _, responds_encFrame s body id fits⟩
    · exact .inl ⟨_, .badLen id body long⟩
  | decPush data => exact .inr ⟨_, _, responds_decPush s data⟩
  | decTake =>
    by_cases held : s.dec.dstate = .complete
    · exact .inr ⟨_, _, responds_decTake s held⟩
    · exact .inl ⟨_, .noFrame held⟩
  | decStatus => exact .inr ⟨_, _, responds_decStatus s⟩
  | decFlush => exact .inr ⟨_, _, responds_decFlush s⟩
  | gtcDecode p =>
    obtain whole | short := le_or_gt 29 p.length
    · exact .inr ⟨_, _, responds_gtcDecode s p whole⟩
    · exact .inl ⟨_, .truncatedDecode short⟩
  | gtcEpoch t => exact .inr ⟨_, _, responds_gtcEpoch s t⟩
  | gtcConvert p =>
    obtain whole | short := le_or_gt 29 p.length
    · exact .inr ⟨_, _, responds_gtcConvert s p whole⟩
    · exact .inl ⟨_, .truncatedConvert short⟩
  | illegal op => exact .inl ⟨_, .illegal op⟩

/-- A command's response is the one error status it has a cause for, and then nothing else happened, or it starts with status OK. -/
theorem response_raises_or_ok {i : Instr} {s t : State} {r : Bytes} (h : Responds i s t r) :
    (∃ e, Raises s i e ∧ t = s.addResponse [statusCode e] ∧ r = [statusCode e]) ∨ ∃ fields, r = 0x00#8 :: fields := by
  obtain ⟨e, cause⟩ | ⟨t', fields, ok⟩ := raises_or_responds_ok i s
  · exact .inl ⟨e, cause, responds_unique h cause.responds⟩
  · exact .inr ⟨fields, (responds_unique h ok).2⟩

theorem statusCode_injective : Function.Injective statusCode := by
  intro e e' h
  cases e <;> cases e' <;> revert h <;> decide

/-- An error status is the response exactly when R251 names a cause for it. -/
theorem response_eq_status_iff {i : Instr} {s t : State} {r : Bytes} (h : Responds i s t r) (e : Status) (he : e ≠ .ok) :
    r = [statusCode e] ↔ Raises s i e := by
  constructor
  · intro hr
    obtain ⟨e', cause, -, hr'⟩ | ⟨fields, hr'⟩ := response_raises_or_ok h
    · have same : e = e' := statusCode_injective (List.singleton_inj.mp (hr.symm.trans hr'))
      exact same ▸ cause
    · have ok : statusCode e = statusCode .ok := List.head_eq_of_cons_eq (hr.symm.trans hr')
      exact absurd (statusCode_injective ok) he
  · exact fun cause => (responds_unique h cause.responds).2

/-- Settles O13: what does not start with status OK has a cause, and a cause adds its one byte to the responses and writes nothing. -/
theorem errorsHaveNoEffect : Obligations.ErrorsHaveNoEffect := by
  unfold Obligations.ErrorsHaveNoEffect
  intro i s t r h notOk
  obtain ⟨e, -, rfl, rfl⟩ | ⟨fields, rfl⟩ := response_raises_or_ok h
  · exact ⟨⟨rfl, rfl⟩, rfl⟩
  · exact absurd rfl notOk

/-! ### The rows of R251's table, read back -/

section Rows
variable {s : State} {i : Instr}

theorem raises_illegal_iff : Raises s i .illegal ↔ ∃ op, i = .illegal op :=
  ⟨fun | .illegal op => ⟨op, rfl⟩, fun ⟨op, hi⟩ => hi ▸ .illegal op⟩

/-- A body on the channel has at most 65535 bytes (R93), so only the longest is too long. -/
theorem raises_badLen_iff (hi : i.WellFormed = true) :
    Raises s i .badLen ↔ ∃ id body, i = .encFrame id body ∧ body.length = 65535 := by
  constructor
  · intro cause
    cases cause with
    | badLen id body long =>
      have fits : body.length ≤ 65535 := of_decide_eq_true hi
      exact ⟨id, body, rfl, by omega⟩
  · rintro ⟨id, body, rfl, hlen⟩
    exact .badLen id body (by omega)

theorem raises_truncated_iff : Raises s i .truncated ↔ ∃ p, (i = .gtcDecode p ∨ i = .gtcConvert p) ∧ p.length < 29 := by
  constructor
  · intro cause
    cases cause with
    | truncatedDecode short => exact ⟨_, .inl rfl, short⟩
    | truncatedConvert short => exact ⟨_, .inr rfl, short⟩
  · rintro ⟨p, rfl | rfl, short⟩
    · exact .truncatedDecode short
    · exact .truncatedConvert short

theorem raises_noFrame_iff : Raises s i .noFrame ↔ i = .decTake ∧ s.dec.dstate ≠ .complete :=
  ⟨fun | .noFrame free => ⟨rfl, free⟩, fun ⟨hi, free⟩ => hi ▸ .noFrame free⟩

end Rows

/-- Settles O14: each status is the response exactly when it has a cause, and R90 leaves no fifth error byte. -/
theorem errorStatusesAndTheirCauses : Obligations.ErrorStatusesAndTheirCauses := by
  unfold Obligations.ErrorStatusesAndTheirCauses
  intro i s t r hi h
  refine ⟨(response_eq_status_iff h .illegal nofun).trans raises_illegal_iff,
    (response_eq_status_iff h .badLen nofun).trans (raises_badLen_iff hi),
    (response_eq_status_iff h .truncated nofun).trans raises_truncated_iff,
    (response_eq_status_iff h .noFrame nofun).trans raises_noFrame_iff, ?_⟩
  rintro ⟨hlen, notOk⟩
  obtain ⟨e, cause, -, rfl⟩ | ⟨fields, rfl⟩ := response_raises_or_ok h
  · cases cause <;> simp [statusCode]
  · have noFields : fields = [] := List.length_eq_zero_iff.mp (Nat.succ.inj hlen)
    exact absurd (by rw [noFields]) notOk

end Sys2Proof.Laws
end

section
/-! Power-on reset by the HOST (70_reset_and_hazards.md): the reset input is asserted while the block waits, so what the channel holds
then is at most a part of a command. -/

namespace Sys2Proof.Laws

open Sys2Proof.Machine

/-- R280: a HOST whose next move is the reset input takes its turn by the power-on reset. -/
theorem hostTurn_of_assertReset {s : State} {later : List HostMove} (h : s.host = .assertReset :: later) :
    hostTurn s = powerOnReset { s with host := later } := by
  simp only [hostTurn, h]

/-- Settles O17: a step of a waiting block is the HOST's turn, here the power-on reset, which clears the block and the channel and keeps
the later moves and the responses. -/
theorem powerOnResetDiscardsAPartialCommand : Obligations.PowerOnResetDiscardsAPartialCommand := by
  unfold Obligations.PowerOnResetDiscardsAPartialCommand
  refine ⟨atReset_of_eq rfl rfl, rfl, fun s why later waits asserts => ?_⟩
  have hstep : step s = .next (powerOnReset { s with host := later }) := by
    rw [step_of_waiting waits, hostTurn_of_assertReset asserts]
  exact ⟨_, hstep, atReset_powerOnReset _, powerOnReset_chan _, powerOnReset_host _, powerOnReset_responses _⟩

end Sys2Proof.Laws
end
